-- ==== Sys2Proof/Word.lean ====
section
/-! DEFINITION. The word types of the engine (00_scope.md R6, R8): every value is an unsigned bit vector of a
fixed width, bit 0 the least significant. -/

namespace Sys2Proof

/-- A lane: "a 64-bit word" (R6, R8, R10). -/
abbrev Lane := BitVec 64

/-- A byte of the byte view `S`, of `block_buffer`, or of a message (R8, R13). -/
abbrev Byte := BitVec 8

/-- A command word of the command port, presented whole (R45, R46). -/
abbrev Word := BitVec 16

/-- The variant selector, INIT's 12-bit operand (R48). -/
abbrev Selector := BitVec 12

end Sys2Proof
end

