-- ==== Sys2Proof/Config.lean ====
section
/-! DEFINITION. What is fixed for the engine (00_scope.md R6, 10_state.md R17), and the FREE VALUES: what the
spec leaves unspecified while the engine goes on. A free value is an opaque constant with no body; applied to the
draw counter of the state it gives a value about which nothing can be proved. -/

namespace Sys2Proof

/-- The size in bytes of each of the two internal byte spaces, `S` and `B` (R30). -/
abbrev Config.spaceBytes : Nat := 200

/-- `round_count`, "fixed at 24 for all variants"; a constant and no register (R17). -/
abbrev Config.roundCount : Nat := 24

/-- FREE VALUE: `buffer_fill` after FINAL, "unspecified" (R82, R99; 93_implementation_defined.md U8). Log entry 2.
The argument is the draw counter. -/
opaque Config.fillAfterFinal : Nat → Byte

/-- FREE VALUE: lane `i` after `rst` (R115, U6, U14). Log entry 3. Arguments: the draw counter, then `i`. -/
opaque Config.laneAfterRst : Nat → Nat → Lane

/-- FREE VALUE: byte `B[k]` after `rst` (R115, U6, U14). Log entry 3. Arguments: the draw counter, then `k`. -/
opaque Config.bufferByteAfterRst : Nat → Nat → Byte

/-- FREE VALUE: `buffer_fill` after `rst` (R115, U6, U14). Log entry 3. -/
opaque Config.fillAfterRst : Nat → Byte

/-- FREE VALUE: `block_size` after `rst` (R115, U6, U14). Log entry 3. -/
opaque Config.rateAfterRst : Nat → Byte

/-- FREE VALUE: `digest_length` after `rst` (R115, U6, U14). Log entry 3. -/
opaque Config.dlenAfterRst : Nat → Byte

/-- FREE VALUE: the output buffer of SQUEEZE after `rst` (R115, U6, U14). Log entry 3. -/
opaque Config.outputAfterRst : Nat → List Byte

end Sys2Proof
end

