-- ==== Sys2Proof/Syntax.lean ====
section
/-! DEFINITION. The instructions: one constructor per row of spec/opcode_table.json. The first three are the host
commands (30_encoding.md R47), the other seven the internal micro-operations of the sequencer (R55). -/

namespace Sys2Proof

/-- The ten operations of the opcode table. -/
inductive Instr where
  /-- INIT sel: choose the variant and zero the lanes (R80). -/
  | init (sel : Selector)
  /-- ABSORB byte: stage one message byte (R81). -/
  | absorb (byte : Byte)
  /-- FINAL: pad, permute, present the digest (R82). -/
  | final
  /-- MIX: XOR the block into the rate part of the state (R61). -/
  | mix
  /-- THETA (R63). -/
  | theta
  /-- RHOPI (R64). -/
  | rhopi
  /-- CHI (R68). -/
  | chi
  /-- IOTA(r): XOR the constant of round `r` into lane 0 (R69). The spec gives `r` the range 0..23 and no width. -/
  | iota (r : Nat)
  /-- PAD: the padding of the final block (R90). -/
  | pad
  /-- SQUEEZE: the extraction of the digest (R93). -/
  | squeeze
  deriving DecidableEq, Repr

/-- A micro-operation as the sequencer names it: the 3-bit step code of format UOP and, beside it, the round index
that the round loop supplies to IOTA (R55, R69). The round index is no part of the code; it is 0 for the other
steps, which take none. -/
structure MicroWord where
  code  : BitVec 3
  round : Nat
  deriving DecidableEq, Repr

/-- The two ways an operation is named: a 16-bit command word (format CMD, R46) or a step code (format UOP, R55). -/
inductive Encoded where
  | command (w : Word)
  | micro (m : MicroWord)
  deriving DecidableEq, Repr

/-- Why a command word names no command (R51, R52). -/
inductive CommandReject where
  /-- `op` is 0x0 or 0x4 to 0xF (R51). -/
  | illegalOpcode
  /-- ABSORB or FINAL with a reserved operand bit set (R52). -/
  | illegalOperand
  deriving DecidableEq, Repr

/-- Why a step code with its round index names no micro-operation. -/
inductive MicroReject where
  /-- "code 7 is unused" (R55). -/
  | unusedCode
  /-- A round index beside a step that takes no operand (R55's operand column). -/
  | strayRound
  /-- IOTA with a round index above 23 (R69). -/
  | roundOutOfRange
  deriving DecidableEq, Repr

end Sys2Proof
end

