-- ==== Sys2Proof/WellFormed.lean ====
section
/-! DEFINITION. Which terms of `Instr` the spec gives a meaning. Every selector (R49) and every byte (R50) is a legal
operand, and the types hold exactly these; the one operand to check is IOTA's round index. -/

namespace Sys2Proof

/-- IOTA's operand is "the round index `r`, 0..23" (R69); no other operand can be out of range. -/
def Instr.wellFormed : Instr → Bool
  | .init _ => true
  | .absorb _ => true
  | .final => true
  | .mix => true
  | .theta => true
  | .rhopi => true
  | .chi => true
  | .iota r => decide (r < Config.roundCount)
  | .pad => true
  | .squeeze => true

end Sys2Proof
end

