-- ==== Sys2Proof/Decode.lean ====
section
/-! DEFINITION. Decoding, total on all 65536 command words and on every step code, rejecting by name; and after it
the encoder, written from the same tables (30_encoding.md R46 to R55). A command word is one 16-bit value and has no
byte order (R33). -/

namespace Sys2Proof

/-- The field `op`, bits 15:12 (R46). -/
def opField (w : Word) : BitVec 4 := w.extractLsb' 12 4

/-- The field `arg`, bits 11:0 (R46). -/
def argField (w : Word) : BitVec 12 := w.extractLsb' 0 12

/-- ABSORB's operand, `arg[7:0]` (R50). -/
def byteField (w : Word) : Byte := w.extractLsb' 0 8

/-- ABSORB's reserved bits, `arg[11:8]` (R50, R52). -/
def reservedField (w : Word) : BitVec 4 := w.extractLsb' 8 4

/-- The decoder of the command port (R47, R50 to R53). The opcode is tested before the operand, as R101 orders the
causes. -/
def decodeCommand (w : Word) : Except CommandReject Instr :=
  if opField w = 0x1#4 then .ok (.init (argField w))
  else if opField w = 0x2#4 then
    if reservedField w = 0#4 then .ok (.absorb (byteField w)) else .error .illegalOperand
  else if opField w = 0x3#4 then
    if argField w = 0#12 then .ok .final else .error .illegalOperand
  else .error .illegalOpcode

/-- A step that takes no operand (R55): it stands beside no round index. -/
def noRound (m : MicroWord) (i : Instr) : Except MicroReject Instr :=
  if m.round = 0 then .ok i else .error .strayRound

/-- The step codes of format UOP (R55). -/
def decodeMicro (m : MicroWord) : Except MicroReject Instr :=
  match m.code.toNat with
  | 0 => noRound m .mix
  | 1 => noRound m .theta
  | 2 => noRound m .rhopi
  | 3 => noRound m .chi
  | 4 => if m.round < Config.roundCount then .ok (.iota m.round) else .error .roundOutOfRange
  | 5 => noRound m .pad
  | 6 => noRound m .squeeze
  | _ => .error .unusedCode

/-- The operation that a command word or a step code names; none where it names none. -/
def decode : Encoded → Option Instr
  | .command w => (decodeCommand w).toOption
  | .micro m => (decodeMicro m).toOption

/-- The code of an operation: `0x1000 | sel` (R80), `0x2000 | byte` (R81), `0x3000` (R82), and R55's step codes. -/
def encode : Instr → Encoded
  | .init sel => .command (0x1000#16 ||| sel.setWidth 16)
  | .absorb byte => .command (0x2000#16 ||| byte.setWidth 16)
  | .final => .command 0x3000#16
  | .mix => .micro ⟨0, 0⟩
  | .theta => .micro ⟨1, 0⟩
  | .rhopi => .micro ⟨2, 0⟩
  | .chi => .micro ⟨3, 0⟩
  | .iota r => .micro ⟨4, r⟩
  | .pad => .micro ⟨5, 0⟩
  | .squeeze => .micro ⟨6, 0⟩

/-- An operation of the opcode table from its bits as one number, as the table numbers them: the 16-bit rows are
command words; in the 3-bit rows bits 2:0 are the step code and the bits above it, if any, the round index (log entry
6). -/
def encodedOfTableWord (nbits w : Nat) : Option Encoded :=
  if nbits ≤ 8 then some (.micro ⟨BitVec.ofNat 3 w, w / 8⟩)
  else if nbits ≤ 16 then some (.command (BitVec.ofNat 16 w))
  else none

/-- The instruction the decoder reads from a row's bits. -/
def decodeTableWord (nbits w : Nat) : Option Instr :=
  (encodedOfTableWord nbits w).bind decode

end Sys2Proof
end

