-- ==== Sys2Proof/Machine/State.lean ====
section
/-! DEFINITION. The state of the engine as plain data (10_state.md R10 to R29), its value right after reset, its
single-field updates, and the reasons a step can stop. The fields `input`, `micro` and `draws` are the MODEL'S OWN
(log entries 5, 6 and 2); all others are the spec's. -/

namespace Sys2Proof.Machine

/-- `lane_array`: `A[0]` to `A[24]`, 64 bits each, none hard-wired (R10). -/
abbrev Lanes := Vector Lane 25

/-- A byte space as (offset, byte) pairs, offsets strictly rising, no entry equal to what an unlisted offset reads as. -/
abbrev Memory := List Host.Cell

/-- What a byte of `block_buffer` that nothing has written reads as. R29 leaves it unspecified and R28 shows that no
command stream reads one; the value is the model's (log entry 4). -/
abbrev Memory.unlisted : Byte := 0#8

/-- The canonical form of the 200-byte space `B` (R13, R30): offsets strictly rising and below 200, no entry that
reads as an unlisted offset does. -/
abbrev Memory.wf (m : Memory) : Prop :=
  m.Pairwise (fun c d => c.1 < d.1) ∧ ∀ c ∈ m, c.1 < Config.spaceBytes ∧ c.2 ≠ Memory.unlisted

/-- The `phase` register (R20): three legal values, "The value 3 is never taken" (log entry 11). -/
inductive Phase where
  /-- IDLE = 0: no INIT since reset. -/
  | idle
  /-- ABSORBING = 1: an INIT and no FINAL since. -/
  | absorbing
  /-- DONE = 2: FINAL has been done. -/
  | done
  deriving DecidableEq, Repr

/-- The `cause` register (R22, R101): the cause of the first refusal since reset. -/
inductive Cause where
  /-- 0: no refusal since reset. -/
  | none
  /-- 1: ILLEGAL_OPCODE. -/
  | illegalOpcode
  /-- 2: ILLEGAL_OPERAND. -/
  | illegalOperand
  /-- 3: WRONG_PHASE. -/
  | wrongPhase
  deriving DecidableEq, Repr

/-- The four digest widths (R1, R6). No register holds the variant; INIT turns it into `rate` and `dlen` (R80). -/
inductive Variant where
  | v224
  | v256
  | v384
  | v512
  deriving DecidableEq, Repr

/-- What the host does at a boundary between commands: it presents a command word (R45) or asserts `rst` (R115). -/
inductive HostInput where
  | command (w : Word)
  | rst
  deriving DecidableEq, Repr

/-- The state of the engine. -/
structure State where
  /-- `lane_array` (R10). -/
  lanes  : Lanes
  /-- `block_buffer`, byte space `B` (R13, R30). -/
  buffer : Memory
  /-- `buffer_fill` (R14, 8 bits by D13). -/
  fill   : Byte
  /-- `block_size` (R15, 8 bits by D13). -/
  rate   : Byte
  /-- `digest_length` (R16, 8 bits by D13). -/
  dlen   : Byte
  /-- `phase` (R20). -/
  phase  : Phase
  /-- `err` (R21). -/
  err    : Bool
  /-- `cause` (R22). -/
  cause  : Cause
  /-- The output of SQUEEZE, `digest_byte[0]`, `digest_byte[1]`, … (R93; log entry 10). -/
  output : List Byte
  /-- MODEL'S OWN: what the host will do next, first thing first (R45; log entry 5). No part of the engine. -/
  input  : List HostInput
  /-- MODEL'S OWN: a single micro-operation to perform as the next step (R55; log entry 6). `none` between commands. -/
  micro  : Option MicroWord
  /-- MODEL'S OWN: how many free values have been drawn (log entry 2). -/
  draws  : Nat
  deriving DecidableEq, Repr

/-- The machine right after reset (R29, R115). `phase`, `err` and `cause` are the spec's; every other value is one the
spec leaves unspecified and log entry 1 names. -/
def State.reset : State where
  lanes  := Vector.replicate 25 0#64
  buffer := []
  fill   := 0#8
  rate   := 136#8
  dlen   := 32#8
  phase  := .idle
  err    := false
  cause  := .none
  output := []
  input  := []
  micro  := none
  draws  := 0

/-- Faults: the machine stops. No run of host commands reaches one. -/
inductive Fault where
  /-- A byte offset outside 0..199 of `S` or `B` would be formed (R30, R38: "no out-of-bounds access exists to be
  specified"). Raised by ABSORB, PAD, FINAL, MIX and SQUEEZE, only in states whose `fill`, `rate` or `dlen` the spec
  rules out. Safe: it stops where the spec says nothing. Log entry 8. -/
  | offsetOutsideSpace
  deriving DecidableEq, Repr

/-- Refusals of the MODEL: no meaning for what is to run. (The ENGINE's refusal of a misused command, R102, is an
effect and leads to a next state.) -/
inductive Refusal where
  /-- An instruction whose arm has no meaning yet. No arm answers so. -/
  | notModelled (mnemonic : String)
  /-- Step code 7 in `micro`: "code 7 is unused" (R55). Raised by the sequencer's slot. Safe: no host command puts
  anything there. -/
  | unusedStepCode
  /-- A round index beside a step that takes none (R55). Raised by the sequencer's slot. Safe, as above. -/
  | strayRoundIndex
  /-- IOTA with a round index above 23: R69 gives `r` the range 0..23 and `RC` has 24 entries (R70). Raised by IOTA
  and by the sequencer's slot. Safe, as above. -/
  | roundIndexOutOfRange
  deriving DecidableEq, Repr

/-- The outcome of a step or of a meaning. -/
abbrev Result := Host.Outcome State Fault Refusal

/-! Single-field updates (`rate` and `dlen` are always written together, and so are `err` and `cause`). -/

def State.setLanes (s : State) (v : Lanes) : State := { s with lanes := v }
def State.setBuffer (s : State) (v : Memory) : State := { s with buffer := v }
def State.setFill (s : State) (v : Byte) : State := { s with fill := v }
def State.setRates (s : State) (rate dlen : Byte) : State := { s with rate := rate, dlen := dlen }
def State.setPhase (s : State) (v : Phase) : State := { s with phase := v }
def State.setFlags (s : State) (err : Bool) (cause : Cause) : State := { s with err := err, cause := cause }
def State.setOutput (s : State) (v : List Byte) : State := { s with output := v }
def State.setInput (s : State) (v : List HostInput) : State := { s with input := v }
def State.setMicro (s : State) (v : Option MicroWord) : State := { s with micro := v }
def State.setDraws (s : State) (v : Nat) : State := { s with draws := v }

end Sys2Proof.Machine
end

