-- ==== Sys2Proof/Machine/Flags.lean ====
section
/-! DEFINITION. The flag computations. The engine has no condition codes (10_state.md R25); its flags are the sticky
`err` (R21) and `cause` (R22), which a refusal alone writes, and the codes by which the host reads the status (R56). -/

namespace Sys2Proof.Machine

/-- `err` after a refusal: 1, whatever it was (R21, R102). -/
def errAfterRefusal (_err : Bool) : Bool := true

/-- `cause` after a refusal with cause `c`: `c` if `err` was 0, else unchanged (R22, R102). -/
def causeAfterRefusal (err : Bool) (cause c : Cause) : Cause := if err then cause else c

/-- The 2-bit code of a phase (R20). -/
def phaseCode : Phase → BitVec 2
  | .idle => 0
  | .absorbing => 1
  | .done => 2

/-- The 2-bit code of a cause (R22, R101). -/
def causeCode : Cause → BitVec 2
  | .none => 0
  | .illegalOpcode => 1
  | .illegalOperand => 2
  | .wrongPhase => 3

/-- The 1-bit value of `err` (R21). -/
def errCode (err : Bool) : BitVec 1 := if err then 1 else 0

end Sys2Proof.Machine
end

