-- ==== Sys2Proof/Machine/Operands.lean ====
section
/-! DEFINITION. The operand forms: INIT's selector and the variant it names (30_encoding.md R48, R49; 41_commands.md
R80), and the two registers a variant fixes. ABSORB's byte is used as it stands (R50), FINAL and the micro-operations
other than IOTA take no operand (R50, R55). -/

namespace Sys2Proof.Machine

/-- `variant(sel)` (R49): 224, 384 and 512 name their variants, every other value names 256. -/
def variantOf (sel : Selector) : Variant :=
  if sel = 224#12 then .v224
  else if sel = 384#12 then .v384
  else if sel = 512#12 then .v512
  else .v256

/-- `block_size` of a variant in bytes (R80). -/
def blockSizeOf : Variant → Byte
  | .v224 => 144#8
  | .v256 => 136#8
  | .v384 => 104#8
  | .v512 => 72#8

/-- `digest_length` of a variant in bytes (R80). -/
def digestLengthOf : Variant → Byte
  | .v224 => 28#8
  | .v256 => 32#8
  | .v384 => 48#8
  | .v512 => 64#8

end Sys2Proof.Machine
end

