-- ==== Sys2Proof/Machine/Ops.lean ====
section
/-! DEFINITION. The named operations: rotation (00_scope.md R9), reads and writes of the two byte spaces (20_memory.md
R30 to R32), sequencing, the refusal of a command (60_exceptions.md R102), and reset (70_reset_and_hazards.md R115). -/

namespace Sys2Proof.Machine

/-- `rotl64(x, n)`, "with n in [1,63]" (R9); truncating shifts (R8). -/
def rotl64 (x : Lane) (n : Nat) : Lane := (x <<< n) ||| (x >>> (64 - n))

/-! ### Space `B`: `block_buffer` -/

/-- `B[k]` (R13): the entry at `k`, or what an unlisted offset reads as. -/
def Memory.read : Memory → Nat → Byte
  | [], _ => Memory.unlisted
  | (k, b) :: m, a => if a = k then b else Memory.read m a

/-- `B[a] <- v`, keeping the canonical form: storing what an unlisted offset reads as removes the entry. -/
def Memory.write : Memory → Nat → Byte → Memory
  | [], a, v => if v = Memory.unlisted then [] else [(a, v)]
  | (k, b) :: m, a, v =>
    if a < k then if v = Memory.unlisted then (k, b) :: m else (a, v) :: (k, b) :: m
    else if a = k then if v = Memory.unlisted then m else (a, v) :: m
    else (k, b) :: Memory.write m a v

/-- `B[a + i] <- f (a + i)` for `i` in `0..n-1`, ascending. -/
def Memory.writeRun (f : Nat → Byte) (m : Memory) (a : Nat) : Nat → Memory
  | 0 => m
  | n + 1 => Memory.writeRun f (Memory.write m a (f a)) (a + 1) n

/-- The eight bytes `f (8i)`, …, `f (8i + 7)` as a lane, byte `8i` lowest (R31, R32). -/
def laneOfBytes (f : Nat → Byte) (i : Nat) : Lane :=
  f (8 * i + 7) ++ f (8 * i + 6) ++ f (8 * i + 5) ++ f (8 * i + 4) ++
    f (8 * i + 3) ++ f (8 * i + 2) ++ f (8 * i + 1) ++ f (8 * i)

/-- `MemRead(B, 8i, 8)` (R32). -/
def Memory.readLane (m : Memory) (i : Nat) : Lane := laneOfBytes (Memory.read m) i

/-! ### Space `S`: the byte view of `lane_array` -/

/-- `S[k] = A[k div 8][8*(k mod 8) + 7 : 8*(k mod 8)]` for `k` in 0..199 (R31). Zero above 199, where no operation
reads: each checks its offsets first. -/
def byteOfLanes (a : Lanes) (k : Nat) : Byte :=
  if h : k / 8 < 25 then (a[k / 8]).extractLsb' (8 * (k % 8)) 8 else 0#8

/-- `S[k] <- v`: exactly the 8 bits of `S[k]` in lane `k div 8` change (R31). Nothing changes above 199, where no
operation writes. -/
def setByteOfLanes (a : Lanes) (k : Nat) (v : Byte) : Lanes :=
  if h : k / 8 < 25 then
    a.set (k / 8)
      ((a[k / 8] &&& ~~~((0xFF#64) <<< (8 * (k % 8)))) ||| ((v.setWidth 64) <<< (8 * (k % 8))))
  else a

/-- `S[0], …, S[n-1]`. -/
def bytesOfLanes (a : Lanes) (n : Nat) : List Byte := (List.range n).map (byteOfLanes a)

/-- `for k in 0..n-1: S[k] <- S[k] ^ f k`, ascending: the byte form of the block XOR (R61, R95). -/
def xorBytes (a : Lanes) (f : Nat → Byte) (n : Nat) : Lanes :=
  (List.range n).foldl (fun a k => setByteOfLanes a k (byteOfLanes a k ^^^ f k)) a

/-! ### Sequencing -/

/-- `r`, and then `f` on the state it leaves; a fault or refusal of `r` stands. -/
def andThen (r : Result) (f : State → Result) : Result :=
  match r with
  | .next s => f s
  | .fault e => .fault e
  | .refused e => .refused e

/-- `f s` where every offset below `n` exists in a byte space; else the fault (R30, R38). -/
def withinSpace (n : Nat) (r : Result) : Result :=
  if n ≤ Config.spaceBytes then r else .fault .offsetOutsideSpace

/-- `B[k] <- v` as an operation on the state: the store of ABSORB (R81). -/
def storeByte (k : Nat) (v : Byte) (s : State) : Result :=
  withinSpace (k + 1) (.next (s.setBuffer (Memory.write s.buffer k v)))

/-! ### The refusal: what this engine has in place of exceptions -/

/-- `raise Refused(c)` (R102): `err <- 1`, `cause <- c` if `err` was 0, and nothing else changes. There is no vector,
no saved state (R105) and no return (R106). -/
def refuse (c : Cause) (s : State) : State :=
  s.setFlags (errAfterRefusal s.err) (causeAfterRefusal s.err s.cause c)

/-- The phase test at the head of ABSORB and FINAL: the command runs in phase ABSORBING and is refused with
WRONG_PHASE in any other (R81, R82, R101). -/
def whileAbsorbing (s : State) (r : Result) : Result :=
  match s.phase with
  | .absorbing => r
  | .idle => .next (refuse .wrongPhase s)
  | .done => .next (refuse .wrongPhase s)

/-! ### Reset -/

/-- The bytes of `block_buffer` after `rst`: all unspecified (R115), so 200 free values. -/
@[irreducible] def freeBuffer (draw : Nat) : Memory :=
  Memory.writeRun (Config.bufferByteAfterRst draw) [] 0 Config.spaceBytes

/-- `rst` asserted (R115): `phase = IDLE`, `err = 0`, `cause = 0`, and everything else of the engine unspecified, each
item a free value (log entry 3). -/
def assertRst (s : State) : State :=
  { lanes  := Vector.ofFn fun i => Config.laneAfterRst s.draws i.val
    buffer := freeBuffer s.draws
    fill   := Config.fillAfterRst s.draws
    rate   := Config.rateAfterRst s.draws
    dlen   := Config.dlenAfterRst s.draws
    phase  := .idle
    err    := false
    cause  := .none
    output := Config.outputAfterRst s.draws
    input  := s.input
    micro  := none
    draws  := s.draws + 1 }

end Sys2Proof.Machine
end

