-- ==== Sys2Proof/Machine/Permutation.lean ====
section
/-! DEFINITION. The permutation engine (40_permutation.md): the constant tables, the block XOR, the four steps of a
round, the round, KECCAK_F and PERMUTE; and the meanings of MIX, THETA, RHOPI, CHI and IOTA. The three tables are
`[from general knowledge, not in source]` there too; the spec numbers them R65, R66, R70. The functions on all 25
lanes are irreducible, so that no proof unfolds them by accident; the kernel still evaluates them. -/

namespace Sys2Proof.Machine

/-! ### Tables -/

/-- `DST[0..23]` (R65). -/
def dstTable : Vector (Fin 25) Config.roundCount :=
  #v[10, 7, 11, 17, 18, 3, 5, 16, 8, 21, 24, 4,
     15, 23, 19, 13, 12, 2, 20, 14, 22, 9, 6, 1]

/-- `ROT[0..23]` (R66). -/
def rotTable : Vector Nat Config.roundCount :=
  #v[1, 3, 6, 10, 15, 21, 28, 36, 45, 55, 2, 14,
     27, 41, 56, 8, 25, 43, 62, 18, 39, 61, 20, 44]

/-- R70's table in its printed layout: row `k` holds `RC[k]` on the left and `RC[k + 12]` on the right. -/
def rcRows : Vector (Lane × Lane) 12 :=
  #v[(0x0000000000000001#64, 0x000000008000808B#64),
     (0x0000000000008082#64, 0x800000000000008B#64),
     (0x800000000000808A#64, 0x8000000000008089#64),
     (0x8000000080008000#64, 0x8000000000008003#64),
     (0x000000000000808B#64, 0x8000000000008002#64),
     (0x0000000080000001#64, 0x8000000000000080#64),
     (0x8000000080008081#64, 0x000000000000800A#64),
     (0x8000000000008009#64, 0x800000008000000A#64),
     (0x000000000000008A#64, 0x8000000080008081#64),
     (0x0000000000000088#64, 0x8000000000008080#64),
     (0x0000000080008009#64, 0x0000000080000001#64),
     (0x000000008000000A#64, 0x8000000080008008#64)]

/-- `RC[0..23]` (R70): the left column, then the right. -/
def rcTable : Vector Lane Config.roundCount :=
  Vector.ofFn fun r => if r.val < 12 then rcRows[r.val % 12].1 else rcRows[r.val % 12].2

/-! ### The steps on the lanes -/

/-- The parity `C[i]` of column `i` (R63). -/
def columnParity (a : Lanes) (i : Fin 5) : Lane :=
  a[i.val] ^^^ a[i.val + 5] ^^^ a[i.val + 10] ^^^ a[i.val + 15] ^^^ a[i.val + 20]

/-- THETA (R63, R119): all five parities are taken first; lane `p` is in column `p mod 5` (R11). -/
@[irreducible] def thetaLanes (a : Lanes) : Lanes :=
  let parity : Vector Lane 5 := Vector.ofFn (columnParity a)
  let t : Vector Lane 5 := Vector.ofFn fun i =>
    parity[(i.val + 4) % 5] ^^^ rotl64 parity[(i.val + 1) % 5] 1
  Vector.ofFn fun p => a[p] ^^^ t[p.val % 5]

/-- One iteration of RHOPI's loop (R64): save `A[j]`, write the rotated accumulator there, accumulate the saved value. -/
def rhoPiMove (c : Lanes × Lane) (i : Fin Config.roundCount) : Lanes × Lane :=
  let j := dstTable[i]
  (c.1.set j.val (rotl64 c.2 rotTable[i]), c.1[j])

/-- RHOPI (R64, R121): the chain of 24 moves in ascending order, the accumulator starting at `A[1]`. -/
@[irreducible] def rhoPiLanes (a : Lanes) : Lanes :=
  ((List.finRange Config.roundCount).foldl rhoPiMove (a, a[1])).1

/-- CHI (R68, R120): every new lane from the old lanes of its row; lane `p` is in the row that starts at
`5 * (p div 5)`. -/
@[irreducible] def chiLanes (a : Lanes) : Lanes :=
  Vector.ofFn fun p =>
    a[p] ^^^ (~~~a[5 * (p.val / 5) + (p.val % 5 + 1) % 5] &&& a[5 * (p.val / 5) + (p.val % 5 + 2) % 5])

/-- IOTA(r) (R69). -/
def iotaLanes (r : Fin Config.roundCount) (a : Lanes) : Lanes :=
  a.set 0 (a[0] ^^^ rcTable[r])

/-- MIX (R61): byte `k` of the byte view is XORed with `B[k]` for `k < rate`, a lane at a time; the bytes from `rate`
on are untouched. -/
@[irreducible] def mixLanes (a : Lanes) (b : Memory) (rate : Nat) : Lanes :=
  Vector.ofFn fun i =>
    a[i] ^^^ laneOfBytes (fun k => if k < rate then Memory.read b k else 0#8) i.val

/-- ROUND(r): THETA, RHOPI, CHI, IOTA(r), in this order (R62, R122). -/
def roundLanes (r : Fin Config.roundCount) (a : Lanes) : Lanes :=
  iotaLanes r (chiLanes (rhoPiLanes (thetaLanes a)))

/-- KECCAK_F: rounds 0 to 23, ascending (R60). -/
@[irreducible] def keccakF (a : Lanes) : Lanes :=
  (List.finRange Config.roundCount).foldl (fun a r => roundLanes r a) a

/-! ### The steps on the state -/

/-- MIX on the state (R61). Only a block size above 200, which no INIT sets (R15), would leave the byte spaces. -/
def mixState (s : State) : Result :=
  withinSpace s.rate.toNat (.next (s.setLanes (mixLanes s.lanes s.buffer s.rate.toNat)))

/-- PERMUTE: MIX once, then KECCAK_F (R60, R122). -/
def permuteState (s : State) : Result :=
  andThen (mixState s) fun s1 => .next (s1.setLanes (keccakF s1.lanes))

/-! ### Meanings -/

/-- MIX (R61). -/
def execMix (s : State) : Result := mixState s

/-- THETA (R63). -/
def execTheta (s : State) : Result := .next (s.setLanes (thetaLanes s.lanes))

/-- RHOPI (R64). -/
def execRhopi (s : State) : Result := .next (s.setLanes (rhoPiLanes s.lanes))

/-- CHI (R68). -/
def execChi (s : State) : Result := .next (s.setLanes (chiLanes s.lanes))

/-- IOTA(r) (R69); a round index above 23 has no constant. -/
def execIota (r : Nat) (s : State) : Result :=
  if h : r < Config.roundCount then .next (s.setLanes (iotaLanes ⟨r, h⟩ s.lanes))
  else .refused .roundIndexOutOfRange

end Sys2Proof.Machine
end

