-- ==== Sys2Proof/Machine/Sponge.lean ====
section
/-! DEFINITION. Padding and squeeze (42_sponge.md), and the meanings of PAD and SQUEEZE. -/

namespace Sys2Proof.Machine

/-- The first padding byte, "reproduce literally as the constant 6" (R6, R90). -/
def firstPadByte : Byte := 0x06#8

/-- The mask of the last padding byte (R6, R90). -/
def lastPadMask : Byte := 0x80#8

/-- The three steps of PAD on `B` (R90, R124; the zero-fill through `rate - 1` is 90_conflicts.md C2). -/
def padMemory (b : Memory) (f rate : Nat) : Memory :=
  let b1 := Memory.write b f firstPadByte
  let b2 := Memory.writeRun (fun _ => 0#8) b1 (f + 1) (rate - (f + 1))
  Memory.write b2 (rate - 1) (Memory.read b2 (rate - 1) ||| lastPadMask)

/-- PAD on the state (R90): pads `B` and leaves `fill` one above its entry value. Its offsets are `fill` up to
`rate - 1`; they exist in every state the entry condition `0 <= fill < rate` and R15 allow. -/
def padState (s : State) : Result :=
  if s.rate = 0#8 then .fault .offsetOutsideSpace
  else withinSpace (s.fill.toNat + 1) (withinSpace s.rate.toNat
    (.next ((s.setBuffer (padMemory s.buffer s.fill.toNat s.rate.toNat)).setFill (s.fill + 1))))

/-- SQUEEZE on the state (R93): the first `dlen` bytes of `S`, in order, to the output; nothing else is written. -/
def squeezeState (s : State) : Result :=
  withinSpace s.dlen.toNat (.next (s.setOutput (bytesOfLanes s.lanes s.dlen.toNat)))

/-- PAD (R90). -/
def execPad (s : State) : Result := padState s

/-- SQUEEZE (R93). -/
def execSqueeze (s : State) : Result := squeezeState s

end Sys2Proof.Machine
end

