-- ==== Sys2Proof/Machine/Commands.lean ====
section
/-! DEFINITION. The meanings of the three host commands INIT, ABSORB and FINAL (41_commands.md R80 to R82). -/

namespace Sys2Proof.Machine

/-- INIT sel (R80): accepted in every phase; `B`, `err` and `cause` are not written. -/
def execInit (sel : Selector) (s : State) : Result :=
  .next ((((s.setRates (blockSizeOf (variantOf sel)) (digestLengthOf (variantOf sel))).setLanes
    (Vector.replicate 25 0#64)).setFill 0#8).setPhase .absorbing)

/-- `if fill = rate: PERMUTE; fill <- 0`, the end of ABSORB (R81): "reaching equality triggers an immediate
permutation and reset to 0" (R14, R123). -/
def closeFullBlock (s : State) : Result :=
  if s.fill = s.rate then andThen (permuteState s) fun s1 => .next (s1.setFill 0#8) else .next s

/-- ABSORB byte (R81, R123): store at `fill`, increment `fill`, and close the block if it is full. -/
def execAbsorb (byte : Byte) (s : State) : Result :=
  whileAbsorbing s <|
    andThen (storeByte s.fill.toNat byte s) fun s1 => closeFullBlock (s1.setFill (s1.fill + 1))

/-- `fill` after FINAL is unspecified (R82, R99): a free value is drawn (log entry 2). -/
def dropFill (s : State) : State :=
  (s.setFill (Config.fillAfterFinal s.draws)).setDraws (s.draws + 1)

/-- FINAL (R82): PAD, PERMUTE, SQUEEZE, `phase <- DONE`. -/
def execFinal (s : State) : Result :=
  whileAbsorbing s <|
    andThen (padState s) fun s1 =>
      andThen (permuteState s1) fun s2 =>
        andThen (squeezeState s2) fun s3 => .next ((dropFill s3).setPhase .done)

end Sys2Proof.Machine
end

