-- ==== Sys2Proof/Machine/Sequencer.lean ====
section
/-! DEFINITION. What one step takes and does: a command word accepted at the command port (30_encoding.md R45), `rst`
(R115), or a single micro-operation in the sequencer's slot (R55, log entry 6). -/

namespace Sys2Proof.Machine

/-- A command word accepted by the engine (R45): performed if it names a command, else refused with the cause of R51
or R52 (R101; the phase test stands in the meanings and comes last). -/
def acceptCommand (w : Word) (s : State) : Result :=
  match decodeCommand w with
  | .ok i => exec i s
  | .error .illegalOpcode => .next (refuse .illegalOpcode s)
  | .error .illegalOperand => .next (refuse .illegalOperand s)

/-- A micro-operation in the sequencer's slot. A code that names none has no meaning (R55). -/
def runMicro (m : MicroWord) (s : State) : Result :=
  match decodeMicro m with
  | .ok i => exec i s
  | .error .unusedCode => .refused .unusedStepCode
  | .error .strayRound => .refused .strayRoundIndex
  | .error .roundOutOfRange => .refused .roundIndexOutOfRange

/-- What the host does at a command boundary. -/
def takeInput (e : HostInput) (s : State) : Result :=
  match e with
  | .command w => acceptCommand w s
  | .rst => .next (assertRst s)

/-- Where the next instruction is fetched from: the sequencer's slot for a micro-operation, the head of the host's
input for a command word. -/
def placeEncoded (e : Encoded) (s : State) : State :=
  match e with
  | .command w => (s.setMicro none).setInput (.command w :: s.input)
  | .micro m => s.setMicro (some m)

end Sys2Proof.Machine
end

