-- ==== Sys2Proof/Machine/Step.lean ====
section
/-! DEFINITION. One step: one accepted host command (30_encoding.md R45). -/

namespace Sys2Proof.Machine

/-- A micro-operation in the slot runs; else the host's next input is taken; with none presented the engine holds its
state (R112). -/
def step (s : State) : Host.Outcome State Fault Refusal :=
  match s.micro with
  | some m => runMicro m (s.setMicro none)
  | none =>
    match s.input with
    | [] => .next s
    | e :: rest => takeInput e (s.setInput rest)

/-- `s` with an instruction of the opcode table, given as the table numbers its bits, where `step` takes its next
instruction from. -/
def State.withFetchWord (s : State) (nbits w : Nat) : State :=
  match encodedOfTableWord nbits w with
  | some e => placeEncoded e s
  | none => s

end Sys2Proof.Machine
end

