-- ==== Sys2Proof/Machine/Outputs.lean ====
section
/-! DEFINITION. What the host can read: the status outputs and the digest port (30_encoding.md R56, R57). Each is a
function of the state, so reading changes nothing (R37). -/

namespace Sys2Proof.Machine

/-- The output `phase[1:0]` (R56). -/
def State.phasePort (s : State) : BitVec 2 := phaseCode s.phase

/-- The output `err` (R56). -/
def State.errPort (s : State) : BitVec 1 := errCode s.err

/-- The output `cause[1:0]` (R56). -/
def State.causePort (s : State) : BitVec 2 := causeCode s.cause

/-- The first 64 bytes of a sequence as a 512-bit value, byte `k` at bits `8k+7 : 8k`, the bits above the last byte 0
(R57). -/
def packBytes : List Byte → BitVec 512
  | [] => 0#512
  | b :: bs => (packBytes bs <<< 8) ||| b.setWidth 512

/-- The output `digest[511:0]` (R57): in phase DONE a window onto `S[0 .. dlen-1]` (R30), the bits above `8*dlen` 0.
In the other phases the spec gives the port no value and the model gives it none (log entry 9). -/
def State.digestPort (s : State) : Option (BitVec 512) :=
  match s.phase with
  | .done => some (packBytes (bytesOfLanes s.lanes s.dlen.toNat))
  | .idle => none
  | .absorbing => none

end Sys2Proof.Machine
end

