-- ==== Sys2Proof/Safety.lean ====
section
/-! DEFINITION. The terms claims use: the invariant between commands, runs of several steps, sequences of
micro-operations, command streams (30_encoding.md R59), and the function a whole message is hashed by
(42_sponge.md R92, R95), written from its own rule and not from the meanings. -/

namespace Sys2Proof.Machine

/-- What holds between commands. -/
structure State.Inv (s : State) : Prop where
  /-- `block_buffer` is in canonical form within its 200 bytes. -/
  bufferCanonical : Memory.wf s.buffer
  /-- No micro-operation is pending: the step position exists only inside a command (R24). -/
  microEmpty : s.micro = none
  /-- After an INIT, `rate` and `dlen` are those of one variant (R15, R16, R80). -/
  ratesLegal : s.phase ≠ .idle → ∃ v : Variant, s.rate = blockSizeOf v ∧ s.dlen = digestLengthOf v
  /-- "Between commands, while `phase = ABSORBING`, `0 <= fill < rate`" (R14). -/
  fillBelowRate : s.phase = .absorbing → s.fill.toNat < s.rate.toNat
  /-- In phase DONE the output of SQUEEZE is what the digest port's window shows (R57, R93, R99). -/
  outputIsDigest : s.phase = .done → s.output = bytesOfLanes s.lanes s.dlen.toNat
  /-- `cause` is 0 exactly while no refusal has happened since reset (R21, R22). -/
  causeMatchesErr : s.err = false ↔ s.cause = .none

/-- `k` steps; a fault or a refusal stops the run. -/
def runSteps : Nat → State → Result
  | 0, s => .next s
  | k + 1, s => andThen (step s) (runSteps k)

/-- Operations performed one after another. -/
def execAll : List Instr → State → Result
  | [], s => .next s
  | i :: is, s => andThen (exec i s) (execAll is)

/-- The micro-operations of KECCAK_F: the four steps of each of the 24 rounds (R60, R62). -/
def keccakMicroOps : List Instr :=
  (List.range 24).flatMap fun r => [.theta, .rhopi, .chi, .iota r]

/-- The command word of an operation that has one. -/
def commandOf (i : Instr) : List HostInput :=
  match encode i with
  | .command w => [.command w]
  | .micro _ => []

/-- `ABSORBN M` (R59): the bytes as ABSORB commands in order. -/
def absorbStream (m : List Byte) : List HostInput := m.flatMap fun b => commandOf (.absorb b)

/-- `HASH sel, M` (R59): `INIT sel`, `ABSORBN M`, `FINAL`. -/
def hashStream (sel : Selector) (m : List Byte) : List HostInput :=
  commandOf (.init sel) ++ absorbStream m ++ commandOf .final

/-- `pad(n)` (R92): `pad(1) = [0x86]`, and `pad(n) = [0x06] ‖ [0x00] x (n-2) ‖ [0x80]` for `n >= 2`. -/
def padBytes (n : Nat) : List Byte :=
  if n = 1 then [0x86#8] else [0x06#8] ++ List.replicate (n - 2) 0x00#8 ++ [0x80#8]

/-- The block `P[j]` of a message (R95): `rate` bytes for `j < q`, the padded rest for `j = q`, with
`q = L div rate`. -/
def messageBlock (rate : Nat) (m : List Byte) (j : Nat) : List Byte :=
  if j < m.length / rate then (m.drop (j * rate)).take rate
  else m.drop (m.length / rate * rate) ++ padBytes (rate - m.length % rate)

/-- `xor_rate` (R95): the bytes of the block XORed into `S[0 .. rate-1]`. -/
def xorBlock (a : Lanes) (p : List Byte) : Lanes := xorBytes a (fun k => p.getD k 0#8) p.length

/-- The states `Z[j]` (R95): `Z[0]` all zero, `Z[j+1] = KECCAK_F(Z[j] xor_rate P[j])`. -/
def spongeLanes (rate : Nat) (m : List Byte) : Nat → Lanes
  | 0 => Vector.replicate 25 0#64
  | j + 1 => keccakF (xorBlock (spongeLanes rate m j) (messageBlock rate m j))

end Sys2Proof.Machine
end

