-- ==== Sys2Proof/Certificates/Slice0/Obligations.lean ====
section
/-! DEFINITION. The statements for the provers, from the spec's numbered rules. What a docstring calls a choice of
the model is in the log entry it names. A register the spec leaves unspecified is given no value here; the one
statement that names a free value, CommandsRunTheirMicroOperations, holds whatever it is (log entry 2). -/

open Sys2Proof Sys2Proof.Machine

/-! ### Reset, steps and the invariant -/

/-- R20 to R22, R115: what reset, and `rst` at a command boundary (the model's form of it, log entry 3), leave in the
three status registers. -/
def Obligations.ResetAndRstClearTheStatusRegisters : Prop :=
  (State.reset.phase = .idle ∧ State.reset.err = false ∧ State.reset.cause = .none) ∧
  ∀ (s : State) (rest : List HostInput), s.micro = none → s.input = .rst :: rest →
    ∃ t, step s = .next t ∧ t.phase = .idle ∧ t.err = false ∧ t.cause = .none ∧ t.micro = none ∧ t.input = rest

/-- The invariant holds right after reset. -/
def Obligations.InvariantHoldsAtReset : Prop := State.reset.Inv

/-- R14, R15, R16, R22, R24, R57: every step keeps the invariant, from every state that has it. -/
def Obligations.EveryStepKeepsTheInvariant : Prop :=
  ∀ s t : State, s.Inv → step s = .next t → t.Inv

/-- R38, R72, R100, R106: from a state with the invariant no step faults and none is refused by the model, whatever
the host presents. -/
def Obligations.NoStepStopsUnderTheInvariant : Prop :=
  ∀ s : State, s.Inv → ∃ t, step s = .next t

/-- R45: a step on a command word that names a command is that command's meaning, with the word consumed; a step on a
micro-operation in the sequencer's slot is its meaning, with the slot emptied. The input and the slot are the model's
own (log entries 5 and 6). -/
def Obligations.StepRunsTheDecodedOperation : Prop :=
  (∀ (s : State) (w : Word) (rest : List HostInput) (i : Instr), s.micro = none → s.input = .command w :: rest →
    decodeCommand w = .ok i → step s = exec i (s.setInput rest)) ∧
  ∀ (s : State) (m : MicroWord) (i : Instr), s.micro = some m → decodeMicro m = .ok i →
    step s = exec i (s.setMicro none)

/-- An instruction given as the opcode table numbers its bits, placed by `withFetchWord`, is what the next step runs
(log entries 5 and 6). -/
def Obligations.StepRunsThePlacedTableWord : Prop :=
  ∀ (s : State) (nbits w : Nat) (i : Instr), decodeTableWord nbits w = some i →
    step (s.withFetchWord nbits w) = exec i (s.setMicro none)

/-- R112: with no command presented the engine holds its state. -/
def Obligations.IdleEngineHoldsItsState : Prop :=
  ∀ s : State, s.micro = none → s.input = [] → step s = .next s

/-! ### Encodings -/

/-- Words written out from R47's patterns and R55's codes decode to the operations they stand for. -/
def Obligations.WrittenCodesDecode : Prop :=
  decodeCommand 0x10E0#16 = .ok (.init 224#12) ∧ decodeCommand 0x1100#16 = .ok (.init 256#12) ∧
  decodeCommand 0x1FFF#16 = .ok (.init 4095#12) ∧ decodeCommand 0x2061#16 = .ok (.absorb 0x61#8) ∧
  decodeCommand 0x3000#16 = .ok .final ∧ decodeCommand 0x0000#16 = .error .illegalOpcode ∧
  decodeCommand 0xFFFF#16 = .error .illegalOpcode ∧ decodeCommand 0x2F61#16 = .error .illegalOperand ∧
  decodeCommand 0x3001#16 = .error .illegalOperand ∧ decodeMicro ⟨0, 0⟩ = .ok .mix ∧
  decodeMicro ⟨1, 0⟩ = .ok .theta ∧ decodeMicro ⟨2, 0⟩ = .ok .rhopi ∧ decodeMicro ⟨3, 0⟩ = .ok .chi ∧
  decodeMicro ⟨4, 23⟩ = .ok (.iota 23) ∧ decodeMicro ⟨5, 0⟩ = .ok .pad ∧ decodeMicro ⟨6, 0⟩ = .ok .squeeze ∧
  decodeMicro ⟨7, 0⟩ = .error .unusedCode

/-- R47, R48, R50: a word is the named command when `w & mask = match`, with the operand in its field as it stands;
the three sets are disjoint, and every word that matches none of them is illegal. -/
def Obligations.CommandsAreTheMaskAndMatchSets : Prop :=
  ∀ w : Word,
    (∀ sel, decodeCommand w = .ok (.init sel) ↔ w &&& 0xF000#16 = 0x1000#16 ∧ w.extractLsb' 0 12 = sel) ∧
    (∀ b, decodeCommand w = .ok (.absorb b) ↔ w &&& 0xFF00#16 = 0x2000#16 ∧ w.extractLsb' 0 8 = b) ∧
    (decodeCommand w = .ok .final ↔ w &&& 0xFFFF#16 = 0x3000#16) ∧
    ¬ (w &&& 0xF000#16 = 0x1000#16 ∧ w &&& 0xFF00#16 = 0x2000#16) ∧
    ¬ (w &&& 0xF000#16 = 0x1000#16 ∧ w &&& 0xFFFF#16 = 0x3000#16) ∧
    ¬ (w &&& 0xFF00#16 = 0x2000#16 ∧ w &&& 0xFFFF#16 = 0x3000#16) ∧
    ((∃ e, decodeCommand w = .error e) ↔
      w &&& 0xF000#16 ≠ 0x1000#16 ∧ w &&& 0xFF00#16 ≠ 0x2000#16 ∧ w &&& 0xFFFF#16 ≠ 0x3000#16)

/-- Decoding and encoding agree, both ways: no bit of an encoding is dropped, and each code has one meaning. -/
def Obligations.DecodeAndEncodeAgree : Prop :=
  (∀ i : Instr, i.wellFormed = true → decode (encode i) = some i) ∧
  ∀ (e : Encoded) (i : Instr), decode e = some i → i.wellFormed = true ∧ encode i = e

/-- R55: no command word encodes a micro-operation, and no step leaves one in the sequencer's slot (the model's own,
log entry 6). -/
def Obligations.NoCommandWordIssuesAMicroOperation : Prop :=
  (∀ (w : Word) (i : Instr), decodeCommand w = .ok i →
    i ≠ .mix ∧ i ≠ .theta ∧ i ≠ .rhopi ∧ i ≠ .chi ∧ (∀ r, i ≠ .iota r) ∧ i ≠ .pad ∧ i ≠ .squeeze) ∧
  ∀ s t : State, step s = .next t → t.micro = none

/-- A step code that names no micro-operation, placed in the sequencer's slot, has no meaning: the step is refused by
the name that says why (log entry 6; no host command puts a code there). -/
def Obligations.StepCodesWithoutMeaningAreRefused : Prop :=
  ∀ (s : State) (m : MicroWord), s.micro = some m →
    (m.code = 7#3 → step s = .refused .unusedStepCode) ∧
    (m.code = 4#3 → 24 ≤ m.round → step s = .refused .roundIndexOutOfRange) ∧
    (m.code ≠ 4#3 → m.code ≠ 7#3 → m.round ≠ 0 → step s = .refused .strayRoundIndex)

/-! ### Refusals and the phase machine -/

/-- R101, R102, R104: the three refusals, in the order of their tests, and their whole effect: `err`, and `cause` if
`err` was 0; the word is consumed and nothing else changes. In every other case `err` and `cause` stay. -/
def Obligations.RefusalCausesAndEffect : Prop :=
  ∀ (s : State) (w : Word) (rest : List HostInput), s.micro = none → s.input = .command w :: rest →
    let op := w.extractLsb' 12 4
    let refused (c : Cause) : Result := .next ((s.setInput rest).setFlags true (if s.err then s.cause else c))
    let badOperand : Prop := (op = 2#4 ∧ w.extractLsb' 8 4 ≠ 0#4) ∨ (op = 3#4 ∧ w.extractLsb' 0 12 ≠ 0#12)
    ((op ≠ 1#4 ∧ op ≠ 2#4 ∧ op ≠ 3#4) → step s = refused .illegalOpcode) ∧
    (badOperand → step s = refused .illegalOperand) ∧
    (((op = 2#4 ∨ op = 3#4) ∧ ¬ badOperand ∧ s.phase ≠ .absorbing) → step s = refused .wrongPhase) ∧
    (op = 1#4 ∨ ((op = 2#4 ∨ op = 3#4) ∧ ¬ badOperand ∧ s.phase = .absorbing) →
      ∀ t, step s = .next t → t.err = s.err ∧ t.cause = s.cause)

/-- R83: which command is accepted in which phase, and the phase after each word. -/
def Obligations.PhaseMachine : Prop :=
  ∀ (s : State) (w : Word) (rest : List HostInput), s.Inv → s.input = .command w :: rest →
    ∃ t, step s = .next t ∧
      (∀ sel, decodeCommand w = .ok (.init sel) → t.phase = .absorbing ∧ t.err = s.err ∧ t.cause = s.cause) ∧
      (∀ b, decodeCommand w = .ok (.absorb b) → t.phase = s.phase ∧
        (s.phase = .absorbing → t.err = s.err ∧ t.cause = s.cause) ∧
        (s.phase ≠ .absorbing → t = refuse .wrongPhase (s.setInput rest))) ∧
      (decodeCommand w = .ok .final →
        (s.phase = .absorbing → t.phase = .done ∧ t.err = s.err ∧ t.cause = s.cause) ∧
        (s.phase ≠ .absorbing → t = refuse .wrongPhase (s.setInput rest))) ∧
      (decodeCommand w = .error .illegalOpcode → t = refuse .illegalOpcode (s.setInput rest)) ∧
      (decodeCommand w = .error .illegalOperand → t = refuse .illegalOperand (s.setInput rest)) ∧
      ∀ c, (refuse c (s.setInput rest)).phase = s.phase

/-- R20: the codes of the three phases, as the host reads them, and never 3; reset writes IDLE, INIT writes ABSORBING
from any phase, FINAL writes DONE from ABSORBING, and nothing else writes `phase`. -/
def Obligations.OnlyInitFinalAndRstWriteThePhase : Prop :=
  (∀ s : State, (s.phase = .idle ↔ s.phasePort = 0#2) ∧ (s.phase = .absorbing ↔ s.phasePort = 1#2) ∧
    (s.phase = .done ↔ s.phasePort = 2#2) ∧ s.phasePort ≠ 3#2) ∧
  State.reset.phase = .idle ∧ (∀ s : State, (assertRst s).phase = .idle) ∧
  ∀ (i : Instr) (s t : State), exec i s = .next t →
    ((∃ sel, i = .init sel) → t.phase = .absorbing) ∧
    (i = .final → s.phase = .absorbing → t.phase = .done) ∧
    ((∀ sel, i ≠ .init sel) → ¬ (i = .final ∧ s.phase = .absorbing) → t.phase = s.phase)

/-- R21, R22, R106: once `err` is 1 it stays 1 and `cause` stays at the first cause, through every step but `rst`; the
host reads the code of the first cause, 1, 2 or 3, and 0 while there is none. -/
def Obligations.ErrIsStickyAndKeepsTheFirstCause : Prop :=
  (∀ s t : State, step s = .next t → s.err = true → (s.micro = none → s.input.head? ≠ some .rst) →
    t.err = true ∧ t.cause = s.cause) ∧
  ∀ s : State, (s.err = true ↔ s.errPort = 1#1) ∧ (s.err = false ↔ s.errPort = 0#1) ∧
    (s.cause = .none ↔ s.causePort = 0#2) ∧ (s.cause = .illegalOpcode ↔ s.causePort = 1#2) ∧
    (s.cause = .illegalOperand ↔ s.causePort = 2#2) ∧ (s.cause = .wrongPhase ↔ s.causePort = 3#2)

/-- R15, R16, R18: between one INIT and the next INIT or reset no step writes `rate` or `dlen`. -/
def Obligations.OnlyInitAndRstWriteRateAndDigestLength : Prop :=
  ∀ s t : State, step s = .next t →
    (t.rate = s.rate ∧ t.dlen = s.dlen) ∨
    (s.micro = none ∧ ∃ rest, s.input = .rst :: rest ∨
      ∃ w sel, s.input = .command w :: rest ∧ decodeCommand w = .ok (.init sel))

/-! ### The host commands -/

/-- R80: INIT, in every phase and with every selector: its word, what it writes and what it leaves alone. The
output is not spoken of: it is unspecified from INIT on (R29, R57). -/
def Obligations.InitStartsAFreshComputation : Prop :=
  ∀ (sel : Selector) (s : State), decodeCommand (0x1000#16 ||| sel.setWidth 16) = .ok (.init sel) ∧
    ∃ t, exec (.init sel) s = .next t ∧
    (∀ i : Fin 25, t.lanes[i] = 0#64) ∧ t.fill = 0#8 ∧ t.phase = .absorbing ∧
    (sel = 224#12 → t.rate = 144#8 ∧ t.dlen = 28#8) ∧
    (sel = 384#12 → t.rate = 104#8 ∧ t.dlen = 48#8) ∧
    (sel = 512#12 → t.rate = 72#8 ∧ t.dlen = 64#8) ∧
    (sel ≠ 224#12 → sel ≠ 384#12 → sel ≠ 512#12 → t.rate = 136#8 ∧ t.dlen = 32#8) ∧
    (∀ k, Memory.read t.buffer k = Memory.read s.buffer k) ∧ t.err = s.err ∧ t.cause = s.cause ∧
    t.input = s.input ∧ t.micro = s.micro ∧ t.draws = s.draws

/-- R97: a selector outside 224, 256, 384, 512 behaves identically to 256: every run of one or more steps from INIT on,
whatever follows, is the same. -/
def Obligations.UnrecognisedSelectorRunsAs256 : Prop :=
  ∀ (sel : Selector) (s : State) (rest : List HostInput) (k : Nat), s.micro = none →
    sel ≠ 224#12 → sel ≠ 384#12 → sel ≠ 512#12 →
    runSteps (k + 1) (s.setInput (commandOf (.init sel) ++ rest)) =
      runSteps (k + 1) (s.setInput (commandOf (.init 256#12) ++ rest))

/-- R81: ABSORB in phase ABSORBING stores the byte at `fill`, increments `fill`, and when `fill` reaches `rate`
permutes and clears `fill`; in any other phase it is refused with WRONG_PHASE. -/
def Obligations.AbsorbStoresAByteAndPermutesAFullBlock : Prop :=
  ∀ (byte : Byte) (s : State), decodeCommand (0x2000#16 ||| byte.setWidth 16) = .ok (.absorb byte) ∧
    (s.phase ≠ .absorbing →
      exec (.absorb byte) s = .next (s.setFlags true (if s.err then s.cause else .wrongPhase))) ∧
    (s.phase = .absorbing → Memory.wf s.buffer → s.fill.toNat < 200 →
      ∃ b : Memory, Memory.read b s.fill.toNat = byte ∧
        (∀ k, k ≠ s.fill.toNat → Memory.read b k = Memory.read s.buffer k) ∧
        ((s.fill + 1 ≠ s.rate → exec (.absorb byte) s = .next ((s.setBuffer b).setFill (s.fill + 1))) ∧
         (s.fill + 1 = s.rate → exec (.absorb byte) s =
            .next (((s.setBuffer b).setLanes (keccakF (mixLanes s.lanes b s.rate.toNat))).setFill 0#8))))

/-- R82: FINAL in phase ABSORBING pads the block, permutes once, presents the first `dlen` bytes and ends in DONE,
writing neither `rate`, `dlen` nor the flags (`fill` is left unspecified); in any other phase it is refused. -/
def Obligations.FinalPadsPermutesAndPresentsTheDigest : Prop :=
  ∀ s : State, decodeCommand 0x3000#16 = .ok .final ∧
    (s.phase ≠ .absorbing → exec .final s = .next (s.setFlags true (if s.err then s.cause else .wrongPhase))) ∧
    (s.phase = .absorbing → Memory.wf s.buffer → s.fill.toNat < s.rate.toNat → s.rate.toNat ≤ 200 →
      s.dlen.toNat ≤ 64 →
      ∃ t, exec .final s = .next t ∧ t.phase = .done ∧
        (∀ k, k < s.fill.toNat ∨ s.rate.toNat ≤ k → Memory.read t.buffer k = Memory.read s.buffer k) ∧
        (∀ k, s.fill.toNat ≤ k → k < s.rate.toNat → Memory.read t.buffer k =
          (padBytes (s.rate.toNat - s.fill.toNat)).getD (k - s.fill.toNat) 0#8) ∧
        t.lanes = keccakF (mixLanes s.lanes t.buffer s.rate.toNat) ∧
        t.output = bytesOfLanes t.lanes s.dlen.toNat ∧ t.digestPort = some (packBytes t.output) ∧
        t.rate = s.rate ∧ t.dlen = s.dlen ∧ t.err = s.err ∧ t.cause = s.cause ∧ t.input = s.input ∧
        t.micro = s.micro)

/-- R60, R62, R82, R122: a performed FINAL is its micro-operations one after another, PAD, MIX, the 24 rounds of
THETA, RHOPI, CHI, IOTA in ascending order, SQUEEZE, and then the change of phase; an ABSORB that fills the block is
its store and then MIX and the same 24 rounds. Two things here are the model's choice: `fill` is left to a free value
by `dropFill`, which advances the draw counter (log entry 2; R82 and R99 leave `fill` unspecified, and the statement
holds whatever the value is), and the equations cover the states in which an offset would leave its space, where both
sides stop with the fault of log entry 8. -/
def Obligations.CommandsRunTheirMicroOperations : Prop :=
  (∀ s : State, s.phase = .absorbing →
    exec .final s = andThen (execAll ([.pad, .mix] ++ keccakMicroOps ++ [.squeeze]) s) fun u =>
      .next ((dropFill u).setPhase .done)) ∧
  ∀ (byte : Byte) (s : State), s.phase = .absorbing → s.fill + 1 = s.rate →
    exec (.absorb byte) s = andThen (storeByte s.fill.toNat byte s) fun u =>
      andThen (execAll ([.mix] ++ keccakMicroOps) u) fun v => .next (v.setFill 0#8)

/-- R99, R57: once the phase is DONE, every step but one that performs INIT or takes `rst` leaves the phase, the
lanes, `block_buffer`, the sizes and so the digest port as they are; and the output sequence (a field by log entry
10). -/
def Obligations.DigestStaysUntilInitOrRst : Prop :=
  ∀ s t : State, s.micro = none → s.phase = .done → step s = .next t →
    (t.phase = .done ∧ t.lanes = s.lanes ∧ t.buffer = s.buffer ∧ t.rate = s.rate ∧ t.dlen = s.dlen ∧
      t.output = s.output ∧ t.digestPort = s.digestPort) ∨
    ∃ rest, s.input = .rst :: rest ∨ ∃ w sel, s.input = .command w :: rest ∧ decodeCommand w = .ok (.init sel)

/-- R25: no operation is conditional on data: on other lanes, another buffer and, for ABSORB, another byte, an
operation that answers a next state answers one again, and the two agree in all but the lanes, the buffer and the
output; but of `fill` after a performed FINAL, which R82 and R99 leave unspecified, nothing is said. That the counts
of drawn free values agree is the model's own form (log entry 2). -/
def Obligations.ControlDoesNotDependOnData : Prop :=
  ∀ (i j : Instr) (s t : State) (lanes : Lanes) (buffer : Memory),
    (i = j ∨ ∃ b c, i = .absorb b ∧ j = .absorb c) → exec i s = .next t →
    ∃ u, exec j ((s.setLanes lanes).setBuffer buffer) = .next u ∧
      (¬ (i = .final ∧ s.phase = .absorbing) → u.fill = t.fill) ∧
      u.phase = t.phase ∧ u.err = t.err ∧ u.cause = t.cause ∧ u.rate = t.rate ∧ u.dlen = t.dlen ∧
      u.input = t.input ∧ u.micro = t.micro ∧ u.draws = t.draws

/-! ### The permutation engine -/

/-- R61: MIX XORs the first `rate` bytes of `block_buffer` into the first `rate` bytes of the byte view, leaves the
capacity bytes and everything else alone, is the byte loop, and is the lane form where 8 divides `rate`; a block of
zero bytes changes nothing, and MIX twice restores the state. -/
def Obligations.MixXorsTheBlockIntoTheRatePart : Prop :=
  decodeMicro ⟨0, 0⟩ = .ok .mix ∧
  ∀ s : State, s.rate.toNat ≤ 200 →
    (∃ a : Lanes, exec .mix s = .next (s.setLanes a) ∧
      (∀ k, k < s.rate.toNat → byteOfLanes a k = byteOfLanes s.lanes k ^^^ Memory.read s.buffer k) ∧
      (∀ k, s.rate.toNat ≤ k → byteOfLanes a k = byteOfLanes s.lanes k) ∧
      a = xorBytes s.lanes (Memory.read s.buffer) s.rate.toNat ∧
      (8 ∣ s.rate.toNat → ∀ i : Fin 25, a[i] =
        if i.val < s.rate.toNat / 8 then s.lanes[i] ^^^ Memory.readLane s.buffer i.val else s.lanes[i])) ∧
    ((∀ k, k < s.rate.toNat → Memory.read s.buffer k = 0#8) → exec .mix s = .next s) ∧
    execAll [.mix, .mix] s = .next s

/-- R63: THETA, at every lane `i + 5y` of the grid, from the parities of the old columns; it writes nothing but the
lanes; a state whose five column parities are 0 maps to itself. -/
def Obligations.ThetaAddsTheNeighbouringParities : Prop :=
  decodeMicro ⟨1, 0⟩ = .ok .theta ∧
  ∀ s : State,
    let c : Fin 5 → Lane := fun x =>
      s.lanes[x.val] ^^^ s.lanes[x.val + 5] ^^^ s.lanes[x.val + 10] ^^^ s.lanes[x.val + 15] ^^^ s.lanes[x.val + 20]
    (∃ a : Lanes, exec .theta s = .next (s.setLanes a) ∧
      ∀ i y : Fin 5, a[i.val + 5 * y.val] =
        s.lanes[i.val + 5 * y.val] ^^^ (c (i + 4) ^^^ (c (i + 1)).rotateLeft 1)) ∧
    ((∀ x, c x = 0#64) → exec .theta s = .next s)

/-- R67: RHOPI in closed form, its 24 moves as the spec lists them; lane 0 stays, and nothing but the lanes is
written. -/
def Obligations.RhoPiMovesAndRotatesTheLanes : Prop :=
  ∀ s : State, ∃ a : Lanes, exec .rhopi s = .next (s.setLanes a) ∧ a[0] = s.lanes[0] ∧
    ∀ move ∈ ([(1, 10, 1), (10, 7, 3), (7, 11, 6), (11, 17, 10), (17, 18, 15), (18, 3, 21), (3, 5, 28), (5, 16, 36),
        (16, 8, 45), (8, 21, 55), (21, 24, 2), (24, 4, 14)] ++
      [(4, 15, 27), (15, 23, 41), (23, 19, 56), (19, 13, 8), (13, 12, 25), (12, 2, 43), (2, 20, 62), (20, 14, 18),
        (14, 22, 39), (22, 9, 61), (9, 6, 20), (6, 1, 44)] : List (Fin 25 × Fin 25 × Nat)),
      a[move.2.1] = (s.lanes[move.1]).rotateLeft move.2.2

/-- R68: CHI, at every lane `5y + i`, from the old lanes of its row; it writes nothing but the lanes. -/
def Obligations.ChiCombinesTheOldRow : Prop :=
  decodeMicro ⟨3, 0⟩ = .ok .chi ∧
  ∀ s : State, ∃ a : Lanes, exec .chi s = .next (s.setLanes a) ∧
    ∀ y i : Fin 5, a[5 * y.val + i.val] =
      s.lanes[5 * y.val + i.val] ^^^ (~~~(s.lanes[5 * y.val + (i + 1).val]) &&& s.lanes[5 * y.val + (i + 2).val])

/-- R69: IOTA(r) XORs `RC[r]` into lane 0 and writes nothing else; twice it restores the state. -/
def Obligations.IotaXorsTheRoundConstant : Prop :=
  ∀ (r : Fin 24) (s : State), decodeMicro ⟨4, r.val⟩ = .ok (.iota r.val) ∧
    (∃ a : Lanes, exec (.iota r.val) s = .next (s.setLanes a) ∧ a[0] = s.lanes[0] ^^^ rcTable[r] ∧
      ∀ i : Fin 25, i ≠ 0 → a[i] = s.lanes[i]) ∧
    execAll [.iota r.val, .iota r.val] s = .next s

/-- R69 gives IOTA's operand the range 0..23; above it there is no constant and the model stops by name (log entry
7). -/
def Obligations.IotaBeyondRound23IsRefused : Prop :=
  ∀ (r : Nat) (s : State), 24 ≤ r → exec (.iota r) s = .refused .roundIndexOutOfRange

/-- R65, R66, R70: the three tables are those of their generating rules. -/
def Obligations.TablesFollowTheirGeneratingRules : Prop :=
  let walk (i : Nat) : Nat × Nat := (fun c : Nat × Nat => (c.2, (2 * c.1 + 3 * c.2) % 5))^[i] (1, 0)
  let lfsr (t : Nat) : Nat :=
    (fun v : Nat => if (v * 2).testBit 8 then v * 2 ^^^ 0x171 else v * 2)^[t % 255] 1
  (∀ i : Fin 24, (dstTable[i]).val = (walk (i.val + 1)).1 + 5 * (walk (i.val + 1)).2) ∧
  (dstTable.toList.map Fin.val).Perm ((List.range 24).map (· + 1)) ∧
  (∀ i : Fin 24, rotTable[i] = (i.val + 1) * (i.val + 2) / 2 % 64 ∧ 1 ≤ rotTable[i] ∧ rotTable[i] ≤ 63) ∧
  rotTable.toList.Nodup ∧ rotTable.toList.sum = 680 ∧
  ∀ (r : Fin 24) (n : Fin 64), (rcTable[r]).getLsbD n.val =
    (List.range 7).any fun j => decide (n.val = 2 ^ j - 1) && (lfsr (j + 7 * r.val)).testBit 0

/-- R9: the rotation formula; for `1 <= n <= 63`, bit `(k + n) mod 64` of `rotl64(x, n)` is bit `k` of `x`; and the
amounts used, THETA's 1 and the table's 24, are in this range. -/
def Obligations.RotateLeftMovesEachBit : Prop :=
  (∀ (x : Lane) (n : Nat), 1 ≤ n → n ≤ 63 → rotl64 x n = (x <<< n) ||| (x >>> (64 - n)) ∧
    ∀ k, k < 64 → (rotl64 x n).getLsbD ((k + n) % 64) = x.getLsbD k) ∧
  ∀ i : Fin 24, 1 ≤ rotTable[i] ∧ rotTable[i] ≤ 63

/-- R60's example (95_test_vectors.md V10): lane 0 of KECCAK_F of the all-zero state. -/
def Obligations.KeccakFOfTheZeroState : Prop :=
  (keccakF (Vector.replicate 25 0#64))[0] = 0xF1258F7940E1DDE7#64

/-- R1, R60: KECCAK_F is a permutation of the 2^1600 lane states. -/
def Obligations.KeccakFIsAPermutation : Prop := Function.Bijective keccakF

/-! ### Padding, squeeze, byte views and the digest port -/

/-- R92: the padded block in closed form: the staged bytes, then `pad(rate - fill)`; bytes from `rate` on and all
else but `fill` are untouched. `fill` is left one higher (R90). -/
def Obligations.PadBuildsThePaddedBlock : Prop :=
  decodeMicro ⟨5, 0⟩ = .ok .pad ∧
  ∀ s : State, Memory.wf s.buffer → s.fill.toNat < s.rate.toNat → s.rate.toNat ≤ 200 →
    ∃ b : Memory, exec .pad s = .next ((s.setBuffer b).setFill (s.fill + 1)) ∧
      (∀ k, k < s.fill.toNat ∨ s.rate.toNat ≤ k → Memory.read b k = Memory.read s.buffer k) ∧
      ∀ k, s.fill.toNat ≤ k → k < s.rate.toNat →
        Memory.read b k = (padBytes (s.rate.toNat - s.fill.toNat)).getD (k - s.fill.toNat) 0#8

/-- R91: with one free byte the padding is the single byte `0x86`, and `fill` becomes `rate`. -/
def Obligations.OneFreeByteIsPaddedWith86 : Prop :=
  ∀ s : State, Memory.wf s.buffer → s.fill.toNat + 1 = s.rate.toNat → s.rate.toNat ≤ 200 →
    ∃ t, exec .pad s = .next t ∧ Memory.read t.buffer (s.rate.toNat - 1) = 0x86#8 ∧ t.fill = s.rate ∧
      ∀ k, k ≠ s.rate.toNat - 1 → Memory.read t.buffer k = Memory.read s.buffer k

/-- R93: SQUEEZE copies the first `dlen` bytes of the byte view to the output and writes nothing else; on the digest
port of phase DONE these bytes stand, byte `k` at bits `8k+7 : 8k`. -/
def Obligations.SqueezeCopiesTheFirstBytes : Prop :=
  decodeMicro ⟨6, 0⟩ = .ok .squeeze ∧
  ∀ s : State, s.dlen.toNat ≤ 200 →
    ∃ out : List Byte, exec .squeeze s = .next (s.setOutput out) ∧ out.length = s.dlen.toNat ∧
      (∀ k, k < s.dlen.toNat → out[k]? = some (byteOfLanes s.lanes k)) ∧
      (s.phase = .done → s.dlen.toNat ≤ 64 → ∃ d, (s.setOutput out).digestPort = some d ∧
        ∀ k, k < s.dlen.toNat → some (d.extractLsb' (8 * k) 8) = out[k]?)

/-- R31: the byte view and the lane view are the same bits: bit by bit, as a little-endian sum, under a write of one
byte and under a write of one lane. -/
def Obligations.ByteViewIsTheLanesLittleEndian : Prop :=
  ∀ a : Lanes,
    (∀ (k : Nat) (h : k / 8 < 25), byteOfLanes a k = (a[k / 8]).extractLsb' (8 * (k % 8)) 8) ∧
    (∀ i : Fin 25, (a[i]).toNat =
      ((List.range 8).map fun j => 2 ^ (8 * j) * (byteOfLanes a (8 * i.val + j)).toNat).sum) ∧
    (∀ (k : Nat) (v : Byte), k < 200 → byteOfLanes (setByteOfLanes a k v) k = v ∧
      (∀ j, j ≠ k → byteOfLanes (setByteOfLanes a k v) j = byteOfLanes a j) ∧
      ∀ i : Fin 25, i.val ≠ k / 8 → (setByteOfLanes a k v)[i] = a[i]) ∧
    ∀ (i : Fin 25) (v : Lane),
      (∀ j, j < 8 → byteOfLanes (a.set i.val v) (8 * i.val + j) = v.extractLsb' (8 * j) 8) ∧
      ∀ k, k / 8 ≠ i.val → byteOfLanes (a.set i.val v) k = byteOfLanes a k

/-- R32: `MemRead(B, 8i, 8)` is `B[8i] + 2^8*B[8i+1] + ... + 2^56*B[8i+7]`, and `MemRead(S, 8i, 8)` is `A[i]`. -/
def Obligations.MemReadAssemblesLittleEndian : Prop :=
  (∀ (b : Memory) (i : Nat), (Memory.readLane b i).toNat =
    ((List.range 8).map fun j => 2 ^ (8 * j) * (Memory.read b (8 * i + j)).toNat).sum) ∧
  ∀ (a : Lanes) (i : Fin 25), laneOfBytes (byteOfLanes a) i.val = a[i]

/-- R57: in phase DONE the digest port shows byte `k` of the byte view at bits `8k+7 : 8k` for `k < dlen`, whole lanes
at `64i+63 : 64i`, and 0 above. -/
def Obligations.DigestPortShowsTheFirstBytes : Prop :=
  ∀ s : State, s.phase = .done → s.dlen.toNat ≤ 64 →
    ∃ d, s.digestPort = some d ∧
      (∀ k, k < s.dlen.toNat → d.extractLsb' (8 * k) 8 = byteOfLanes s.lanes k) ∧
      (∀ i : Fin 8, 8 * i.val + 8 ≤ s.dlen.toNat → d.extractLsb' (64 * i.val) 64 = s.lanes[i.val]) ∧
      ∀ j, 8 * s.dlen.toNat ≤ j → d.getLsbD j = false

/-- R19, R94: in every variant the capacity is twice the digest length, the digest lies in the rate part, and the
output in phase DONE has the variant's digest length. -/
def Obligations.OneSqueezeSuffices : Prop :=
  (∀ v : Variant, 200 - (blockSizeOf v).toNat = 2 * (digestLengthOf v).toNat ∧
    (digestLengthOf v).toNat ≤ (blockSizeOf v).toNat ∧ 8 ∣ (blockSizeOf v).toNat) ∧
  ∀ s : State, s.Inv → s.phase = .done →
    s.output.length = s.dlen.toNat ∧ s.output.length ∈ [28, 32, 48, 64] ∧ s.dlen.toNat ≤ s.rate.toNat

/-- Offsets the spec says do not exist (R30) are never formed under the invariant; where `fill`, `rate` or `dlen` would
form one, the operation stops by name (log entry 8). -/
def Obligations.OffsetsOutsideTheSpacesFault : Prop :=
  ∀ s : State,
    (200 < s.rate.toNat → exec .mix s = .fault .offsetOutsideSpace ∧ exec .pad s = .fault .offsetOutsideSpace) ∧
    (200 ≤ s.fill.toNat → exec .pad s = .fault .offsetOutsideSpace) ∧
    (s.rate = 0#8 → exec .pad s = .fault .offsetOutsideSpace) ∧
    (200 < s.dlen.toNat → exec .squeeze s = .fault .offsetOutsideSpace) ∧
    (s.phase = .absorbing → 200 ≤ s.fill.toNat → ∀ b, exec (.absorb b) s = .fault .offsetOutsideSpace) ∧
    (s.phase = .absorbing →
      200 ≤ s.fill.toNat ∨ s.rate = 0#8 ∨ 200 < s.rate.toNat ∨ 200 < s.dlen.toNat →
      exec .final s = .fault .offsetOutsideSpace)

/-! ### Command streams -/

/-- R84, R85: absorbing `m1` and then `m2`, as two calls between which the engine has run out of commands, leaves
exactly the state that absorbing `m1 ++ m2` in one call leaves, and FINAL then ends in exactly the state of the whole
stream of `m1 ++ m2`, in phase DONE with the digest of `m1 ++ m2` on the port; an absorb of nothing is no command and
changes nothing. Either part may be empty. -/
def Obligations.IncrementalAbsorbGivesTheSameDigest : Prop :=
  ∀ (s : State) (sel : Selector) (m1 m2 : List Byte), s.micro = none → Memory.wf s.buffer →
    let rate := (blockSizeOf (variantOf sel)).toNat
    let dlen := (digestLengthOf (variantOf sel)).toNat
    let m := m1 ++ m2
    ∃ u v t,
      runSteps (m1.length + 1) (s.setInput (commandOf (.init sel) ++ absorbStream m1)) = .next u ∧ u.input = [] ∧
      runSteps (absorbStream m2).length (u.setInput (absorbStream m2)) = .next v ∧ v.input = [] ∧
      (m2 = [] → absorbStream m2 = [] ∧ v = u) ∧
      runSteps (m.length + 1) (s.setInput (commandOf (.init sel) ++ absorbStream m)) = .next v ∧
      step (v.setInput (commandOf .final)) = .next t ∧
      runSteps (m.length + 2) (s.setInput (hashStream sel m)) = .next t ∧ t.phase = .done ∧
      t.digestPort = some (packBytes (bytesOfLanes (spongeLanes rate m (m.length / rate + 1)) dlen))

/-- R86: the state after INIT and `n` ABSORBs: `fill = n mod rate`, the last `fill` bytes staged, the whole blocks
absorbed. -/
def Obligations.StateAfterAbsorbingAMessage : Prop :=
  ∀ (s : State) (sel : Selector) (m : List Byte) (rest : List HostInput), s.micro = none → Memory.wf s.buffer →
    s.input = commandOf (.init sel) ++ absorbStream m ++ rest →
    ∃ t, runSteps (m.length + 1) s = .next t ∧ t.phase = .absorbing ∧ t.input = rest ∧ t.micro = none ∧
      t.rate = blockSizeOf (variantOf sel) ∧ t.dlen = digestLengthOf (variantOf sel) ∧
      t.fill.toNat = m.length % t.rate.toNat ∧
      (∀ k, k < t.fill.toNat →
        Memory.read t.buffer k = m.getD (m.length / t.rate.toNat * t.rate.toNat + k) 0#8) ∧
      t.lanes = spongeLanes t.rate.toNat m (m.length / t.rate.toNat) ∧ t.err = s.err ∧ t.cause = s.cause

/-- R95: the whole-message function: the stream INIT, ABSORB for each byte, FINAL, of every message and selector, from
any phase and whatever the lanes and the buffer held, ends in DONE with the sponge's lanes and its first `dlen` bytes
on the digest port. -/
def Obligations.HashStreamComputesTheSpongeFunction : Prop :=
  ∀ (s : State) (sel : Selector) (m : List Byte) (rest : List HostInput), s.micro = none → Memory.wf s.buffer →
    s.input = hashStream sel m ++ rest →
    let rate := (blockSizeOf (variantOf sel)).toNat
    let dlen := (digestLengthOf (variantOf sel)).toNat
    ∃ t, runSteps (m.length + 2) s = .next t ∧ t.phase = .done ∧ t.input = rest ∧
      t.lanes = spongeLanes rate m (m.length / rate + 1) ∧
      t.digestPort = some (packBytes (bytesOfLanes (spongeLanes rate m (m.length / rate + 1)) dlen)) ∧
      t.output = bytesOfLanes (spongeLanes rate m (m.length / rate + 1)) dlen ∧
      t.err = s.err ∧ t.cause = s.cause

/-- R28, R88: two engines in any two states, given the same command words from an INIT onward (legal or not), agree
after every step in the lanes, `rate`, `dlen`, `phase`, in DONE the digest port and in ABSORBING `fill`, whatever
lanes and stale bytes of `block_buffer` they held; and if their `err` and `cause` were equal at the start, these are
equal too. (INIT clears neither, R21 and R106, so from unequal ones they may stay unequal.) -/
def Obligations.EnginesGivenTheSameWordsFromInitAgree : Prop :=
  ∀ (s1 s2 : State) (sel : Selector) (words : List Word) (k : Nat),
    s1.micro = none → s2.micro = none → Memory.wf s1.buffer → Memory.wf s2.buffer →
    s1.input = commandOf (.init sel) ++ words.map .command →
    s2.input = commandOf (.init sel) ++ words.map .command →
    ∃ t1 t2, runSteps (k + 1) s1 = .next t1 ∧ runSteps (k + 1) s2 = .next t2 ∧
      t1.lanes = t2.lanes ∧ t1.rate = t2.rate ∧ t1.dlen = t2.dlen ∧ t1.phase = t2.phase ∧
      (t1.phase = .done → t1.digestPort = t2.digestPort) ∧ (t1.phase = .absorbing → t1.fill = t2.fill) ∧
      (s1.err = s2.err → s1.cause = s2.cause → t1.err = t2.err ∧ t1.cause = t2.cause)

/-! ### The output sequence -/

/-- The output sequence of R93 is written by SQUEEZE and by a performed FINAL, which ends with it, and by no other
instruction. That INIT keeps it is the model's choice (log entry 10): R29, R57 and U9 leave the output unspecified
from INIT on. -/
def Obligations.OnlySqueezeAndFinalWriteTheOutput : Prop :=
  ∀ (i : Instr) (s t : State), exec i s = .next t →
    ((i = .squeeze ∨ (i = .final ∧ s.phase = .absorbing)) → t.output = bytesOfLanes t.lanes s.dlen.toNat) ∧
    (i ≠ .squeeze → ¬ (i = .final ∧ s.phase = .absorbing) → t.output = s.output)
end

