-- ==== Sys2Proof/Laws/Decode.lean ====
section
/-! SUPPORT. The fields of a command word: what the encoder puts into them, and that they are the whole word. -/

namespace Sys2Proof

/-- The sixteen bit positions of a command word. -/
theorem bit_position_cases {i : Nat} (h : i < 16) :
    i = 0 ∨ i = 1 ∨ i = 2 ∨ i = 3 ∨ i = 4 ∨ i = 5 ∨ i = 6 ∨ i = 7 ∨ i = 8 ∨ i = 9 ∨ i = 10 ∨ i = 11 ∨
      i = 12 ∨ i = 13 ∨ i = 14 ∨ i = 15 := by omega

theorem field_bit (w : Word) (lo n i : Nat) :
    (w.extractLsb' lo n).getLsbD i = (decide (i < n) && w.getLsbD (lo + i)) := by
  simp [BitVec.getLsbD_extractLsb']

@[simp] theorem opField_init (sel : Selector) : opField (0x1000#16 ||| sel.setWidth 16) = 0x1#4 := by
  apply BitVec.eq_of_getLsbD_eq
  intro i hi
  rcases bit_position_cases (show i < 16 by omega) with rfl | rfl | rfl | rfl | h <;>
    first | omega | simp [opField]

@[simp] theorem argField_init (sel : Selector) : argField (0x1000#16 ||| sel.setWidth 16) = sel := by
  apply BitVec.eq_of_getLsbD_eq
  intro i hi
  rcases bit_position_cases (show i < 16 by omega) with
    rfl | rfl | rfl | rfl | rfl | rfl | rfl | rfl | rfl | rfl | rfl | rfl | h <;>
    first | omega | simp [argField]

@[simp] theorem opField_absorb (b : Byte) : opField (0x2000#16 ||| b.setWidth 16) = 0x2#4 := by
  apply BitVec.eq_of_getLsbD_eq
  intro i hi
  rcases bit_position_cases (show i < 16 by omega) with rfl | rfl | rfl | rfl | h <;>
    first | omega | simp [opField]

@[simp] theorem reservedField_absorb (b : Byte) : reservedField (0x2000#16 ||| b.setWidth 16) = 0#4 := by
  apply BitVec.eq_of_getLsbD_eq
  intro i hi
  rcases bit_position_cases (show i < 16 by omega) with rfl | rfl | rfl | rfl | h <;>
    first | omega | simp [reservedField]

@[simp] theorem byteField_absorb (b : Byte) : byteField (0x2000#16 ||| b.setWidth 16) = b := by
  apply BitVec.eq_of_getLsbD_eq
  intro i hi
  rcases bit_position_cases (show i < 16 by omega) with rfl | rfl | rfl | rfl | rfl | rfl | rfl | rfl | h <;>
    first | omega | simp [byteField]

/-- Two words with the same fields are the same word. -/
theorem word_eq_of_fields {v w : Word} (ho : opField v = opField w) (ha : argField v = argField w) : v = w := by
  apply BitVec.eq_of_getLsbD_eq
  intro i hi
  by_cases h : i < 12
  · have := congrArg (fun x => x.getLsbD i) ha
    simpa only [argField, field_bit, h, decide_true, Bool.true_and, Nat.zero_add] using this
  · have := congrArg (fun x => x.getLsbD (i - 12)) ho
    simpa only [opField, field_bit, show i - 12 < 4 by omega, decide_true, Bool.true_and,
      show 12 + (i - 12) = i by omega] using this

/-- ABSORB's operand field is its reserved bits and its byte. -/
theorem argField_eq_of_parts {v w : Word} (hr : reservedField v = reservedField w)
    (hb : byteField v = byteField w) : argField v = argField w := by
  apply BitVec.eq_of_getLsbD_eq
  intro i hi
  simp only [argField, field_bit, hi, decide_true, Bool.true_and, Nat.zero_add]
  by_cases h : i < 8
  · have := congrArg (fun x => x.getLsbD i) hb
    simpa only [byteField, field_bit, h, decide_true, Bool.true_and, Nat.zero_add] using this
  · have := congrArg (fun x => x.getLsbD (i - 8)) hr
    simpa only [reservedField, field_bit, show i - 8 < 4 by omega, decide_true, Bool.true_and,
      show 8 + (i - 8) = i by omega] using this

end Sys2Proof
end

