-- ==== Sys2Proof/Laws/Lanes.lean ====
section
/-! SUPPORT. The byte view of the lanes, and each step of a round read off at one lane. -/

namespace Sys2Proof.Machine

/-- The bits of a byte of the byte view are bits of its lane. -/
theorem byteOfLanes_getLsbD (a : Lanes) {k : Nat} (hk : k / 8 < 25) (j : Nat) :
    (byteOfLanes a k).getLsbD j = (decide (j < 8) && (a[k / 8]).getLsbD (8 * (k % 8) + j)) := by
  simp [byteOfLanes, hk, BitVec.getLsbD_extractLsb']

/-- The bits of a lane assembled from bytes. -/
theorem laneOfBytes_getLsbD (f : Nat → Byte) (i n : Nat) (hn : n < 64) :
    (laneOfBytes f i).getLsbD n = (f (8 * i + n / 8)).getLsbD (n % 8) := by
  have key : ∀ c m, n / 8 = c → n % 8 = m →
      (f (8 * i + c)).getLsbD m = (f (8 * i + n / 8)).getLsbD (n % 8) := by
    rintro _ _ rfl rfl; rfl
  unfold laneOfBytes
  simp only [BitVec.getLsbD_append]
  split
  · exact key 0 _ (by omega) (by omega)
  split
  · exact key 1 _ (by omega) (by omega)
  split
  · exact key 2 _ (by omega) (by omega)
  split
  · exact key 3 _ (by omega) (by omega)
  split
  · exact key 4 _ (by omega) (by omega)
  split
  · exact key 5 _ (by omega) (by omega)
  split
  · exact key 6 _ (by omega) (by omega)
  · exact key 7 _ (by omega) (by omega)

/-- Byte `j` of a lane assembled from bytes is the `j`-th of them. -/
theorem laneOfBytes_extract (f : Nat → Byte) (i j : Nat) (hj : j < 8) :
    (laneOfBytes f i).extractLsb' (8 * j) 8 = f (8 * i + j) := by
  apply BitVec.eq_of_getLsbD_eq
  intro n hn
  rw [BitVec.getLsbD_extractLsb', laneOfBytes_getLsbD _ _ _ (by omega)]
  simp [hn, show (8 * j + n) / 8 = j by omega, show n % 8 = n by omega]

/-- Lanes whose 200 bytes agree are equal. -/
theorem lanes_eq_of_bytes {a b : Lanes} (h : ∀ k, k < 200 → byteOfLanes a k = byteOfLanes b k) : a = b := by
  apply Vector.ext
  intro i hi
  apply BitVec.eq_of_getLsbD_eq
  intro n hn
  have hk : (8 * i + n / 8) / 8 = i := by omega
  have := congrArg (fun x => x.getLsbD (n % 8)) (h (8 * i + n / 8) (by omega))
  simp only [byteOfLanes_getLsbD _ (show (8 * i + n / 8) / 8 < 25 by omega), hk] at this
  have e : 8 * ((8 * i + n / 8) % 8) + n % 8 = n := by omega
  rw [e] at this
  simpa [show n % 8 < 8 by omega] using this

theorem byteOfLanes_above (a : Lanes) {k : Nat} (hk : 200 ≤ k) : byteOfLanes a k = 0#8 := by
  simp [byteOfLanes, show ¬ k / 8 < 25 by omega]

/-- The byte written is the byte read. -/
theorem byteOfLanes_setByteOfLanes_same (a : Lanes) {k : Nat} (hk : k < 200) (v : Byte) :
    byteOfLanes (setByteOfLanes a k v) k = v := by
  have h : k / 8 < 25 := by omega
  apply BitVec.eq_of_getLsbD_eq
  intro n hn
  have e : 0xFF#64 = (BitVec.allOnes 8).setWidth 64 := by decide
  rw [byteOfLanes_getLsbD _ h]
  simp only [setByteOfLanes, dif_pos h, Vector.getElem_set_self, e]
  simp only [BitVec.getLsbD_or, BitVec.getLsbD_and, BitVec.getLsbD_not, BitVec.getLsbD_shiftLeft,
    BitVec.getLsbD_setWidth, BitVec.getLsbD_allOnes]
  simp [hn, show 8 * (k % 8) + n < 64 by omega, show n < 64 by omega]

/-- The other bytes keep their values. -/
theorem byteOfLanes_setByteOfLanes_other (a : Lanes) {k j : Nat} (v : Byte) (hj : j ≠ k) :
    byteOfLanes (setByteOfLanes a k v) j = byteOfLanes a j := by
  by_cases h : k / 8 < 25
  · by_cases h2 : j / 8 < 25
    · apply BitVec.eq_of_getLsbD_eq
      intro n hn
      have e : 0xFF#64 = (BitVec.allOnes 8).setWidth 64 := by decide
      rw [byteOfLanes_getLsbD _ h2, byteOfLanes_getLsbD _ h2]
      simp only [setByteOfLanes, dif_pos h]
      by_cases hl : k / 8 = j / 8
      · simp only [Vector.getElem_set, if_pos hl, e]
        simp only [BitVec.getLsbD_or, BitVec.getLsbD_and, BitVec.getLsbD_not, BitVec.getLsbD_shiftLeft,
          BitVec.getLsbD_setWidth, BitVec.getLsbD_allOnes, hl]
        by_cases hlt : 8 * (j % 8) + n < 8 * (k % 8)
        · simp [hlt, show 8 * (j % 8) + n < 64 by omega]
        · have h8 : BitVec.getLsbD v (8 * (j % 8) + n - 8 * (k % 8)) = false :=
            BitVec.getLsbD_of_ge _ _ (by omega)
          simp [hlt, h8, show 8 * (j % 8) + n < 64 by omega, show ¬ 8 * (j % 8) + n - 8 * (k % 8) < 8 by omega]
      · simp [hl]
    · simp [byteOfLanes, h2]
  · simp [setByteOfLanes, h]

/-- The byte form of the block XOR, read at one byte: the bytes below `n` are XORed, the others kept. -/
theorem byteOfLanes_xorBytes (a : Lanes) (f : Nat → Byte) {n : Nat} (hn : n ≤ 200) (k : Nat) :
    byteOfLanes (xorBytes a f n) k = if k < n then byteOfLanes a k ^^^ f k else byteOfLanes a k := by
  induction n with
  | zero => simp [xorBytes]
  | succ n ih =>
    have e : xorBytes a f (n + 1) =
        setByteOfLanes (xorBytes a f n) n (byteOfLanes (xorBytes a f n) n ^^^ f n) := by
      simp [xorBytes, List.range_succ]
    rw [e]
    by_cases hk : k = n
    · subst hk
      rw [byteOfLanes_setByteOfLanes_same _ (by omega), ih (by omega)]
      simp
    · rw [byteOfLanes_setByteOfLanes_other _ _ hk, ih (by omega)]
      simp [show k < n + 1 ↔ k < n by omega]

theorem bytesOfLanes_length (a : Lanes) (n : Nat) : (bytesOfLanes a n).length = n := by simp [bytesOfLanes]

@[simp] theorem bytesOfLanes_getElem (a : Lanes) (n k : Nat) (h : k < (bytesOfLanes a n).length) :
    (bytesOfLanes a n)[k] = byteOfLanes a k := by simp [bytesOfLanes]

/-- One lane of MIX. -/
@[simp] theorem mixLanes_getElem (a : Lanes) (b : Memory) (rate i : Nat) (h : i < 25) :
    (mixLanes a b rate)[i] =
      a[i] ^^^ laneOfBytes (fun k => if k < rate then Memory.read b k else 0#8) i := by
  simp [mixLanes]

/-- One byte of MIX. -/
theorem byteOfLanes_mixLanes (a : Lanes) (b : Memory) (rate k : Nat) (hk : k < 200) :
    byteOfLanes (mixLanes a b rate) k =
      byteOfLanes a k ^^^ (if k < rate then Memory.read b k else 0#8) := by
  have h : k / 8 < 25 := by omega
  apply BitVec.eq_of_getLsbD_eq
  intro n hn
  rw [BitVec.getLsbD_xor, byteOfLanes_getLsbD _ h, byteOfLanes_getLsbD _ h, mixLanes_getElem, BitVec.getLsbD_xor,
    laneOfBytes_getLsbD _ _ _ (by omega)]
  have e : 8 * (k / 8) + (8 * (k % 8) + n) / 8 = k := by omega
  simp [hn, e, show (8 * (k % 8) + n) % 8 = n by omega]

/-- One lane of THETA. -/
theorem thetaLanes_getElem (a : Lanes) (p : Nat) (h : p < 25) :
    (thetaLanes a)[p] = a[p] ^^^ (columnParity a ⟨(p % 5 + 4) % 5, by omega⟩ ^^^
      rotl64 (columnParity a ⟨(p % 5 + 1) % 5, by omega⟩) 1) := by
  simp [thetaLanes]

/-- One lane of CHI. -/
theorem chiLanes_getElem (a : Lanes) (p : Nat) (h : p < 25) :
    (chiLanes a)[p] =
      a[p] ^^^ (~~~a[5 * (p / 5) + (p % 5 + 1) % 5] &&& a[5 * (p / 5) + (p % 5 + 2) % 5]) := by
  simp [chiLanes]

/-- Lane 0 after IOTA. -/
@[simp] theorem iotaLanes_getElem_zero (r : Fin Config.roundCount) (a : Lanes) :
    (iotaLanes r a)[0] = a[0] ^^^ rcTable[r] := by simp [iotaLanes]

/-- The other lanes after IOTA. -/
theorem iotaLanes_getElem_succ (r : Fin Config.roundCount) (a : Lanes) (i : Nat) (h : i < 25) (hi : i ≠ 0) :
    (iotaLanes r a)[i] = a[i] := by
  simp [iotaLanes, Ne.symm hi]

end Sys2Proof.Machine
end

