-- ==== Sys2Proof/Laws/Memory.lean ====
section
/-! SUPPORT. The laws of `block_buffer`: reads after writes, and that every write keeps the canonical form. -/

namespace Sys2Proof.Machine

@[simp] theorem Memory.read_nil (a : Nat) : Memory.read [] a = 0#8 := rfl

theorem Memory.wf_nil : Memory.wf [] := by simp [Memory.wf]

theorem Memory.wf_tail {c : Host.Cell} {m : Memory} (h : Memory.wf (c :: m)) : Memory.wf m :=
  ⟨(List.pairwise_cons.1 h.1).2, fun d hd => h.2 d (List.mem_cons_of_mem _ hd)⟩

theorem Memory.wf_head_lt {c : Host.Cell} {m : Memory} (h : Memory.wf (c :: m)) : ∀ d ∈ m, c.1 < d.1 :=
  (List.pairwise_cons.1 h.1).1

theorem Memory.wf_cons {c : Host.Cell} {m : Memory} (hm : Memory.wf m) (hlt : ∀ d ∈ m, c.1 < d.1)
    (hc : c.1 < Config.spaceBytes ∧ c.2 ≠ Memory.unlisted) : Memory.wf (c :: m) :=
  ⟨List.pairwise_cons.2 ⟨hlt, hm.1⟩, fun d hd => by
    rcases List.mem_cons.1 hd with rfl | hd
    · exact hc
    · exact hm.2 d hd⟩

/-- An offset that no entry lists reads as an unlisted offset. -/
theorem Memory.read_eq_unlisted {m : Memory} {a : Nat} (h : ∀ c ∈ m, c.1 ≠ a) :
    Memory.read m a = Memory.unlisted := by
  induction m with
  | nil => rfl
  | cons c m ih =>
    have hc : a ≠ c.1 := fun e => h c (by simp) e.symm
    simp only [Memory.read, if_neg hc]
    exact ih fun d hd => h d (List.mem_cons_of_mem _ hd)

theorem Memory.read_eq_unlisted_of_lt {m : Memory} {a k : Nat} (h : ∀ d ∈ m, k < d.1) (ha : a ≤ k) :
    Memory.read m a = Memory.unlisted :=
  Memory.read_eq_unlisted fun c hc => by have := h c hc; omega

/-- Above the space nothing is listed. -/
theorem Memory.read_above {m : Memory} (h : Memory.wf m) {a : Nat} (ha : Config.spaceBytes ≤ a) :
    Memory.read m a = Memory.unlisted :=
  Memory.read_eq_unlisted fun c hc => by have := (h.2 c hc).1; omega

/-- A read after a write to the same offset gives the byte written. -/
theorem Memory.read_write_same {m : Memory} (h : Memory.wf m) (a : Nat) (v : Byte) :
    Memory.read (Memory.write m a v) a = v := by
  induction m with
  | nil => by_cases hv : v = Memory.unlisted <;> simp [Memory.write, Memory.read, hv]
  | cons c m ih =>
    obtain ⟨k, b⟩ := c
    have hlt := Memory.wf_head_lt h
    simp only at hlt
    by_cases h1 : a < k
    · by_cases hv : v = Memory.unlisted
      · have : a ≠ k := by omega
        simp only [Memory.write, if_pos h1, if_pos hv, Memory.read, if_neg this]
        rw [hv]; exact Memory.read_eq_unlisted_of_lt hlt (by omega)
      · simp [Memory.write, if_pos h1, if_neg hv, Memory.read]
    · by_cases h2 : a = k
      · by_cases hv : v = Memory.unlisted
        · simp only [Memory.write, if_neg h1, if_pos h2, if_pos hv]
          rw [hv]; exact Memory.read_eq_unlisted_of_lt hlt (by omega)
        · simp [Memory.write, if_neg h1, if_pos h2, if_neg hv, Memory.read]
      · simp only [Memory.write, if_neg h1, if_neg h2, Memory.read]
        exact ih (Memory.wf_tail h)

/-- A write leaves every other offset alone (in any list, canonical or not). -/
theorem Memory.read_write_other (m : Memory) {a b : Nat} (v : Byte) (hab : b ≠ a) :
    Memory.read (Memory.write m a v) b = Memory.read m b := by
  induction m with
  | nil => by_cases hv : v = Memory.unlisted <;> simp [Memory.write, Memory.read, hv, hab]
  | cons c m ih =>
    obtain ⟨k, x⟩ := c
    by_cases h1 : a < k
    · by_cases hv : v = Memory.unlisted <;> simp [Memory.write, h1, hv, Memory.read, hab]
    · by_cases h2 : a = k
      · subst h2
        by_cases hv : v = Memory.unlisted <;> simp [Memory.write, hv, Memory.read, hab]
      · simp only [Memory.write, if_neg h1, if_neg h2, Memory.read, ih]

/-- Every entry after a write is the one written or was there before. -/
theorem Memory.mem_write {m : Memory} {a : Nat} {v : Byte} {c : Host.Cell} (h : c ∈ Memory.write m a v) :
    (c = (a, v) ∧ v ≠ Memory.unlisted) ∨ c ∈ m := by
  induction m with
  | nil => by_cases hv : v = Memory.unlisted <;> simp_all [Memory.write]
  | cons d m ih =>
    obtain ⟨k, x⟩ := d
    by_cases h1 : a < k
    · by_cases hv : v = Memory.unlisted <;> simp_all [Memory.write]
    · by_cases h2 : a = k
      · by_cases hv : v = Memory.unlisted <;> simp_all [Memory.write]; tauto
      · simp only [Memory.write, if_neg h1, if_neg h2, List.mem_cons] at h
        rcases h with rfl | h
        · simp
        · rcases ih h with h | h
          · exact .inl h
          · exact .inr (List.mem_cons_of_mem _ h)

/-- A write within the space keeps the canonical form. -/
theorem Memory.write_wf {m : Memory} (h : Memory.wf m) {a : Nat} (ha : a < Config.spaceBytes) (v : Byte) :
    Memory.wf (Memory.write m a v) := by
  induction m with
  | nil => by_cases hv : v = Memory.unlisted <;> simp_all [Memory.write, Memory.wf]
  | cons c m ih =>
    obtain ⟨k, x⟩ := c
    have hlt := Memory.wf_head_lt h
    have hm := Memory.wf_tail h
    simp only at hlt
    by_cases h1 : a < k
    · by_cases hv : v = Memory.unlisted
      · simpa [Memory.write, h1, hv] using h
      · simp only [Memory.write, if_pos h1, if_neg hv]
        refine Memory.wf_cons h (fun d hd => ?_) ⟨ha, hv⟩
        rcases List.mem_cons.1 hd with rfl | hd
        · exact h1
        · exact Nat.lt_trans h1 (hlt d hd)
    · by_cases h2 : a = k
      · by_cases hv : v = Memory.unlisted
        · simpa [Memory.write, h1, h2, hv] using hm
        · simp only [Memory.write, if_neg h1, if_pos h2, if_neg hv]
          exact Memory.wf_cons hm (fun d hd => h2 ▸ hlt d hd) ⟨ha, hv⟩
      · simp only [Memory.write, if_neg h1, if_neg h2]
        refine Memory.wf_cons (ih hm) (fun d hd => ?_) (h.2 (k, x) (by simp))
        rcases Memory.mem_write hd with ⟨rfl, -⟩ | hd
        · simp only; omega
        · exact hlt d hd

/-- A run of writes within the space keeps the canonical form. -/
theorem Memory.writeRun_wf (f : Nat → Byte) {m : Memory} (h : Memory.wf m) {a n : Nat}
    (ha : a + n ≤ Config.spaceBytes) : Memory.wf (Memory.writeRun f m a n) := by
  induction n generalizing m a with
  | zero => exact h
  | succ n ih => exact ih (Memory.write_wf h (by omega) _) (by omega)

/-- Outside the run nothing changes. -/
theorem Memory.read_writeRun_outside (f : Nat → Byte) (m : Memory) {a n k : Nat} (hk : k < a ∨ a + n ≤ k) :
    Memory.read (Memory.writeRun f m a n) k = Memory.read m k := by
  induction n generalizing m a with
  | zero => rfl
  | succ n ih =>
    rw [Memory.writeRun, ih _ (by omega), Memory.read_write_other _ _ (by omega)]

/-- Inside the run each offset holds its byte. -/
theorem Memory.read_writeRun_inside (f : Nat → Byte) {m : Memory} (h : Memory.wf m) {a n k : Nat}
    (ha : a + n ≤ Config.spaceBytes) (h1 : a ≤ k) (h2 : k < a + n) :
    Memory.read (Memory.writeRun f m a n) k = f k := by
  induction n generalizing m a with
  | zero => omega
  | succ n ih =>
    rw [Memory.writeRun]
    by_cases hk : k = a
    · subst hk
      rw [Memory.read_writeRun_outside _ _ (by omega), Memory.read_write_same h]
    · exact ih (Memory.write_wf h (by omega) _) (by omega) (by omega) (by omega)

/-- The buffer after `rst` is in canonical form. -/
theorem freeBuffer_wf (draw : Nat) : Memory.wf (freeBuffer draw) := by
  unfold freeBuffer
  exact Memory.writeRun_wf _ Memory.wf_nil (by simp)

end Sys2Proof.Machine
end

