-- ==== Sys2Proof/Laws/State.lean ====
section
/-! SUPPORT. What each update of the state does to each field, all by rfl. -/

namespace Sys2Proof.Machine

@[simp] theorem State.setLanes_lanes (s : State) (v : Lanes) : (s.setLanes v).lanes = v := rfl
@[simp] theorem State.setLanes_buffer (s : State) (v : Lanes) : (s.setLanes v).buffer = s.buffer := rfl
@[simp] theorem State.setLanes_fill (s : State) (v : Lanes) : (s.setLanes v).fill = s.fill := rfl
@[simp] theorem State.setLanes_rate (s : State) (v : Lanes) : (s.setLanes v).rate = s.rate := rfl
@[simp] theorem State.setLanes_dlen (s : State) (v : Lanes) : (s.setLanes v).dlen = s.dlen := rfl
@[simp] theorem State.setLanes_phase (s : State) (v : Lanes) : (s.setLanes v).phase = s.phase := rfl
@[simp] theorem State.setLanes_err (s : State) (v : Lanes) : (s.setLanes v).err = s.err := rfl
@[simp] theorem State.setLanes_cause (s : State) (v : Lanes) : (s.setLanes v).cause = s.cause := rfl
@[simp] theorem State.setLanes_output (s : State) (v : Lanes) : (s.setLanes v).output = s.output := rfl
@[simp] theorem State.setLanes_input (s : State) (v : Lanes) : (s.setLanes v).input = s.input := rfl
@[simp] theorem State.setLanes_micro (s : State) (v : Lanes) : (s.setLanes v).micro = s.micro := rfl
@[simp] theorem State.setLanes_draws (s : State) (v : Lanes) : (s.setLanes v).draws = s.draws := rfl

@[simp] theorem State.setBuffer_lanes (s : State) (v : Memory) : (s.setBuffer v).lanes = s.lanes := rfl
@[simp] theorem State.setBuffer_buffer (s : State) (v : Memory) : (s.setBuffer v).buffer = v := rfl
@[simp] theorem State.setBuffer_fill (s : State) (v : Memory) : (s.setBuffer v).fill = s.fill := rfl
@[simp] theorem State.setBuffer_rate (s : State) (v : Memory) : (s.setBuffer v).rate = s.rate := rfl
@[simp] theorem State.setBuffer_dlen (s : State) (v : Memory) : (s.setBuffer v).dlen = s.dlen := rfl
@[simp] theorem State.setBuffer_phase (s : State) (v : Memory) : (s.setBuffer v).phase = s.phase := rfl
@[simp] theorem State.setBuffer_err (s : State) (v : Memory) : (s.setBuffer v).err = s.err := rfl
@[simp] theorem State.setBuffer_cause (s : State) (v : Memory) : (s.setBuffer v).cause = s.cause := rfl
@[simp] theorem State.setBuffer_output (s : State) (v : Memory) : (s.setBuffer v).output = s.output := rfl
@[simp] theorem State.setBuffer_input (s : State) (v : Memory) : (s.setBuffer v).input = s.input := rfl
@[simp] theorem State.setBuffer_micro (s : State) (v : Memory) : (s.setBuffer v).micro = s.micro := rfl
@[simp] theorem State.setBuffer_draws (s : State) (v : Memory) : (s.setBuffer v).draws = s.draws := rfl

@[simp] theorem State.setFill_lanes (s : State) (v : Byte) : (s.setFill v).lanes = s.lanes := rfl
@[simp] theorem State.setFill_buffer (s : State) (v : Byte) : (s.setFill v).buffer = s.buffer := rfl
@[simp] theorem State.setFill_fill (s : State) (v : Byte) : (s.setFill v).fill = v := rfl
@[simp] theorem State.setFill_rate (s : State) (v : Byte) : (s.setFill v).rate = s.rate := rfl
@[simp] theorem State.setFill_dlen (s : State) (v : Byte) : (s.setFill v).dlen = s.dlen := rfl
@[simp] theorem State.setFill_phase (s : State) (v : Byte) : (s.setFill v).phase = s.phase := rfl
@[simp] theorem State.setFill_err (s : State) (v : Byte) : (s.setFill v).err = s.err := rfl
@[simp] theorem State.setFill_cause (s : State) (v : Byte) : (s.setFill v).cause = s.cause := rfl
@[simp] theorem State.setFill_output (s : State) (v : Byte) : (s.setFill v).output = s.output := rfl
@[simp] theorem State.setFill_input (s : State) (v : Byte) : (s.setFill v).input = s.input := rfl
@[simp] theorem State.setFill_micro (s : State) (v : Byte) : (s.setFill v).micro = s.micro := rfl
@[simp] theorem State.setFill_draws (s : State) (v : Byte) : (s.setFill v).draws = s.draws := rfl

@[simp] theorem State.setRates_lanes (s : State) (r d : Byte) : (s.setRates r d).lanes = s.lanes := rfl
@[simp] theorem State.setRates_buffer (s : State) (r d : Byte) : (s.setRates r d).buffer = s.buffer := rfl
@[simp] theorem State.setRates_fill (s : State) (r d : Byte) : (s.setRates r d).fill = s.fill := rfl
@[simp] theorem State.setRates_rate (s : State) (r d : Byte) : (s.setRates r d).rate = r := rfl
@[simp] theorem State.setRates_dlen (s : State) (r d : Byte) : (s.setRates r d).dlen = d := rfl
@[simp] theorem State.setRates_phase (s : State) (r d : Byte) : (s.setRates r d).phase = s.phase := rfl
@[simp] theorem State.setRates_err (s : State) (r d : Byte) : (s.setRates r d).err = s.err := rfl
@[simp] theorem State.setRates_cause (s : State) (r d : Byte) : (s.setRates r d).cause = s.cause := rfl
@[simp] theorem State.setRates_output (s : State) (r d : Byte) : (s.setRates r d).output = s.output := rfl
@[simp] theorem State.setRates_input (s : State) (r d : Byte) : (s.setRates r d).input = s.input := rfl
@[simp] theorem State.setRates_micro (s : State) (r d : Byte) : (s.setRates r d).micro = s.micro := rfl
@[simp] theorem State.setRates_draws (s : State) (r d : Byte) : (s.setRates r d).draws = s.draws := rfl

@[simp] theorem State.setPhase_lanes (s : State) (v : Phase) : (s.setPhase v).lanes = s.lanes := rfl
@[simp] theorem State.setPhase_buffer (s : State) (v : Phase) : (s.setPhase v).buffer = s.buffer := rfl
@[simp] theorem State.setPhase_fill (s : State) (v : Phase) : (s.setPhase v).fill = s.fill := rfl
@[simp] theorem State.setPhase_rate (s : State) (v : Phase) : (s.setPhase v).rate = s.rate := rfl
@[simp] theorem State.setPhase_dlen (s : State) (v : Phase) : (s.setPhase v).dlen = s.dlen := rfl
@[simp] theorem State.setPhase_phase (s : State) (v : Phase) : (s.setPhase v).phase = v := rfl
@[simp] theorem State.setPhase_err (s : State) (v : Phase) : (s.setPhase v).err = s.err := rfl
@[simp] theorem State.setPhase_cause (s : State) (v : Phase) : (s.setPhase v).cause = s.cause := rfl
@[simp] theorem State.setPhase_output (s : State) (v : Phase) : (s.setPhase v).output = s.output := rfl
@[simp] theorem State.setPhase_input (s : State) (v : Phase) : (s.setPhase v).input = s.input := rfl
@[simp] theorem State.setPhase_micro (s : State) (v : Phase) : (s.setPhase v).micro = s.micro := rfl
@[simp] theorem State.setPhase_draws (s : State) (v : Phase) : (s.setPhase v).draws = s.draws := rfl

@[simp] theorem State.setFlags_lanes (s : State) (e : Bool) (c : Cause) : (s.setFlags e c).lanes = s.lanes := rfl
@[simp] theorem State.setFlags_buffer (s : State) (e : Bool) (c : Cause) : (s.setFlags e c).buffer = s.buffer := rfl
@[simp] theorem State.setFlags_fill (s : State) (e : Bool) (c : Cause) : (s.setFlags e c).fill = s.fill := rfl
@[simp] theorem State.setFlags_rate (s : State) (e : Bool) (c : Cause) : (s.setFlags e c).rate = s.rate := rfl
@[simp] theorem State.setFlags_dlen (s : State) (e : Bool) (c : Cause) : (s.setFlags e c).dlen = s.dlen := rfl
@[simp] theorem State.setFlags_phase (s : State) (e : Bool) (c : Cause) : (s.setFlags e c).phase = s.phase := rfl
@[simp] theorem State.setFlags_err (s : State) (e : Bool) (c : Cause) : (s.setFlags e c).err = e := rfl
@[simp] theorem State.setFlags_cause (s : State) (e : Bool) (c : Cause) : (s.setFlags e c).cause = c := rfl
@[simp] theorem State.setFlags_output (s : State) (e : Bool) (c : Cause) : (s.setFlags e c).output = s.output := rfl
@[simp] theorem State.setFlags_input (s : State) (e : Bool) (c : Cause) : (s.setFlags e c).input = s.input := rfl
@[simp] theorem State.setFlags_micro (s : State) (e : Bool) (c : Cause) : (s.setFlags e c).micro = s.micro := rfl
@[simp] theorem State.setFlags_draws (s : State) (e : Bool) (c : Cause) : (s.setFlags e c).draws = s.draws := rfl

@[simp] theorem State.setOutput_lanes (s : State) (v : List Byte) : (s.setOutput v).lanes = s.lanes := rfl
@[simp] theorem State.setOutput_buffer (s : State) (v : List Byte) : (s.setOutput v).buffer = s.buffer := rfl
@[simp] theorem State.setOutput_fill (s : State) (v : List Byte) : (s.setOutput v).fill = s.fill := rfl
@[simp] theorem State.setOutput_rate (s : State) (v : List Byte) : (s.setOutput v).rate = s.rate := rfl
@[simp] theorem State.setOutput_dlen (s : State) (v : List Byte) : (s.setOutput v).dlen = s.dlen := rfl
@[simp] theorem State.setOutput_phase (s : State) (v : List Byte) : (s.setOutput v).phase = s.phase := rfl
@[simp] theorem State.setOutput_err (s : State) (v : List Byte) : (s.setOutput v).err = s.err := rfl
@[simp] theorem State.setOutput_cause (s : State) (v : List Byte) : (s.setOutput v).cause = s.cause := rfl
@[simp] theorem State.setOutput_output (s : State) (v : List Byte) : (s.setOutput v).output = v := rfl
@[simp] theorem State.setOutput_input (s : State) (v : List Byte) : (s.setOutput v).input = s.input := rfl
@[simp] theorem State.setOutput_micro (s : State) (v : List Byte) : (s.setOutput v).micro = s.micro := rfl
@[simp] theorem State.setOutput_draws (s : State) (v : List Byte) : (s.setOutput v).draws = s.draws := rfl

@[simp] theorem State.setInput_lanes (s : State) (v : List HostInput) : (s.setInput v).lanes = s.lanes := rfl
@[simp] theorem State.setInput_buffer (s : State) (v : List HostInput) : (s.setInput v).buffer = s.buffer := rfl
@[simp] theorem State.setInput_fill (s : State) (v : List HostInput) : (s.setInput v).fill = s.fill := rfl
@[simp] theorem State.setInput_rate (s : State) (v : List HostInput) : (s.setInput v).rate = s.rate := rfl
@[simp] theorem State.setInput_dlen (s : State) (v : List HostInput) : (s.setInput v).dlen = s.dlen := rfl
@[simp] theorem State.setInput_phase (s : State) (v : List HostInput) : (s.setInput v).phase = s.phase := rfl
@[simp] theorem State.setInput_err (s : State) (v : List HostInput) : (s.setInput v).err = s.err := rfl
@[simp] theorem State.setInput_cause (s : State) (v : List HostInput) : (s.setInput v).cause = s.cause := rfl
@[simp] theorem State.setInput_output (s : State) (v : List HostInput) : (s.setInput v).output = s.output := rfl
@[simp] theorem State.setInput_input (s : State) (v : List HostInput) : (s.setInput v).input = v := rfl
@[simp] theorem State.setInput_micro (s : State) (v : List HostInput) : (s.setInput v).micro = s.micro := rfl
@[simp] theorem State.setInput_draws (s : State) (v : List HostInput) : (s.setInput v).draws = s.draws := rfl

@[simp] theorem State.setMicro_lanes (s : State) (v : Option MicroWord) : (s.setMicro v).lanes = s.lanes := rfl
@[simp] theorem State.setMicro_buffer (s : State) (v : Option MicroWord) : (s.setMicro v).buffer = s.buffer := rfl
@[simp] theorem State.setMicro_fill (s : State) (v : Option MicroWord) : (s.setMicro v).fill = s.fill := rfl
@[simp] theorem State.setMicro_rate (s : State) (v : Option MicroWord) : (s.setMicro v).rate = s.rate := rfl
@[simp] theorem State.setMicro_dlen (s : State) (v : Option MicroWord) : (s.setMicro v).dlen = s.dlen := rfl
@[simp] theorem State.setMicro_phase (s : State) (v : Option MicroWord) : (s.setMicro v).phase = s.phase := rfl
@[simp] theorem State.setMicro_err (s : State) (v : Option MicroWord) : (s.setMicro v).err = s.err := rfl
@[simp] theorem State.setMicro_cause (s : State) (v : Option MicroWord) : (s.setMicro v).cause = s.cause := rfl
@[simp] theorem State.setMicro_output (s : State) (v : Option MicroWord) : (s.setMicro v).output = s.output := rfl
@[simp] theorem State.setMicro_input (s : State) (v : Option MicroWord) : (s.setMicro v).input = s.input := rfl
@[simp] theorem State.setMicro_micro (s : State) (v : Option MicroWord) : (s.setMicro v).micro = v := rfl
@[simp] theorem State.setMicro_draws (s : State) (v : Option MicroWord) : (s.setMicro v).draws = s.draws := rfl

@[simp] theorem State.setDraws_lanes (s : State) (v : Nat) : (s.setDraws v).lanes = s.lanes := rfl
@[simp] theorem State.setDraws_buffer (s : State) (v : Nat) : (s.setDraws v).buffer = s.buffer := rfl
@[simp] theorem State.setDraws_fill (s : State) (v : Nat) : (s.setDraws v).fill = s.fill := rfl
@[simp] theorem State.setDraws_rate (s : State) (v : Nat) : (s.setDraws v).rate = s.rate := rfl
@[simp] theorem State.setDraws_dlen (s : State) (v : Nat) : (s.setDraws v).dlen = s.dlen := rfl
@[simp] theorem State.setDraws_phase (s : State) (v : Nat) : (s.setDraws v).phase = s.phase := rfl
@[simp] theorem State.setDraws_err (s : State) (v : Nat) : (s.setDraws v).err = s.err := rfl
@[simp] theorem State.setDraws_cause (s : State) (v : Nat) : (s.setDraws v).cause = s.cause := rfl
@[simp] theorem State.setDraws_output (s : State) (v : Nat) : (s.setDraws v).output = s.output := rfl
@[simp] theorem State.setDraws_input (s : State) (v : Nat) : (s.setDraws v).input = s.input := rfl
@[simp] theorem State.setDraws_micro (s : State) (v : Nat) : (s.setDraws v).micro = s.micro := rfl
@[simp] theorem State.setDraws_draws (s : State) (v : Nat) : (s.setDraws v).draws = v := rfl

/-- Writing a field's own value changes nothing. -/
@[simp] theorem State.setInput_self (s : State) : s.setInput s.input = s := rfl
@[simp] theorem State.setMicro_self (s : State) : s.setMicro s.micro = s := rfl
@[simp] theorem State.setMicro_setMicro (s : State) (v w : Option MicroWord) : (s.setMicro v).setMicro w = s.setMicro w := rfl
@[simp] theorem State.setInput_setInput (s : State) (v w : List HostInput) : (s.setInput v).setInput w = s.setInput w := rfl
@[simp] theorem State.setLanes_setLanes (s : State) (v w : Lanes) : (s.setLanes v).setLanes w = s.setLanes w := rfl
@[simp] theorem State.setFill_setFill (s : State) (v w : Byte) : (s.setFill v).setFill w = s.setFill w := rfl
@[simp] theorem State.setPhase_setPhase (s : State) (v w : Phase) : (s.setPhase v).setPhase w = s.setPhase w := rfl

end Sys2Proof.Machine
end

