-- ==== Sys2Proof/Laws/Ops.lean ====
section
/-! SUPPORT. One lemma per shared operation: everything it can do. -/

namespace Sys2Proof.Machine

/-- The result of a sequence that answers a next state. -/
theorem andThen_eq_next {r : Result} {f : State → Result} {t : State} :
    andThen r f = .next t ↔ ∃ s, r = .next s ∧ f s = .next t := by
  cases r <;> simp [andThen]

@[simp] theorem andThen_next (s : State) (f : State → Result) : andThen (.next s) f = f s := rfl

theorem andThen_assoc (r : Result) (f g : State → Result) :
    andThen (andThen r f) g = andThen r fun s => andThen (f s) g := by
  cases r <;> rfl

@[simp] theorem withinSpace_of_le {n : Nat} (h : n ≤ 200) (r : Result) : withinSpace n r = r := by
  simp [withinSpace, h]

theorem withinSpace_eq_next {n : Nat} {r : Result} {t : State} :
    withinSpace n r = .next t ↔ n ≤ 200 ∧ r = .next t := by
  unfold withinSpace
  split <;> simp_all

theorem storeByte_eq_next {k : Nat} {v : Byte} {s t : State} :
    storeByte k v s = .next t ↔ k < 200 ∧ t = s.setBuffer (Memory.write s.buffer k v) := by
  simp only [storeByte, withinSpace_eq_next, Host.Outcome.next.injEq, eq_comm (a := t), Nat.succ_le_iff]

theorem mixState_eq_next {s t : State} :
    mixState s = .next t ↔
      s.rate.toNat ≤ 200 ∧ t = s.setLanes (mixLanes s.lanes s.buffer s.rate.toNat) := by
  simp only [mixState, withinSpace_eq_next, Host.Outcome.next.injEq, eq_comm (a := t)]

theorem permuteState_eq_next {s t : State} :
    permuteState s = .next t ↔
      s.rate.toNat ≤ 200 ∧ t = s.setLanes (keccakF (mixLanes s.lanes s.buffer s.rate.toNat)) := by
  simp only [permuteState, andThen_eq_next, mixState_eq_next]
  constructor
  · rintro ⟨u, ⟨h, rfl⟩, h2⟩
    injection h2 with h2
    exact ⟨h, by rw [← h2, State.setLanes_setLanes, State.setLanes_lanes]⟩
  · rintro ⟨h, rfl⟩
    exact ⟨_, ⟨h, rfl⟩, by rw [State.setLanes_setLanes, State.setLanes_lanes]⟩

theorem padState_eq_next {s t : State} :
    padState s = .next t ↔ s.rate ≠ 0#8 ∧ s.fill.toNat < 200 ∧ s.rate.toNat ≤ 200 ∧
      t = (s.setBuffer (padMemory s.buffer s.fill.toNat s.rate.toNat)).setFill (s.fill + 1) := by
  unfold padState
  split
  · simp_all
  · simp only [withinSpace_eq_next, Host.Outcome.next.injEq, eq_comm (a := t), Nat.succ_le_iff]
    tauto

theorem squeezeState_eq_next {s t : State} :
    squeezeState s = .next t ↔
      s.dlen.toNat ≤ 200 ∧ t = s.setOutput (bytesOfLanes s.lanes s.dlen.toNat) := by
  simp only [squeezeState, withinSpace_eq_next, Host.Outcome.next.injEq, eq_comm (a := t)]

/-- The phase test: the two outcomes. -/
theorem whileAbsorbing_cases (s : State) (r : Result) :
    (s.phase = .absorbing ∧ whileAbsorbing s r = r) ∨
      (s.phase ≠ .absorbing ∧ whileAbsorbing s r = .next (refuse .wrongPhase s)) := by
  unfold whileAbsorbing
  cases h : s.phase <;> simp

/-- A refusal as an update of the flags alone. -/
theorem refuse_eq (c : Cause) (s : State) :
    refuse c s = s.setFlags true (if s.err then s.cause else c) := rfl

@[simp] theorem refuse_err (c : Cause) (s : State) : (refuse c s).err = true := rfl

theorem refuse_cause_ne_none {c : Cause} {s : State} (hc : c ≠ .none) (h : s.err = false ↔ s.cause = .none) :
    (refuse c s).cause ≠ .none := by
  rw [refuse_eq]
  cases he : s.err <;> simp_all

/-! A refusal writes the flags alone; `rst` writes the status; FINAL's last update writes `fill` alone. -/

@[simp] theorem refuse_lanes (c : Cause) (s : State) : (refuse c s).lanes = s.lanes := rfl
@[simp] theorem refuse_buffer (c : Cause) (s : State) : (refuse c s).buffer = s.buffer := rfl
@[simp] theorem refuse_fill (c : Cause) (s : State) : (refuse c s).fill = s.fill := rfl
@[simp] theorem refuse_rate (c : Cause) (s : State) : (refuse c s).rate = s.rate := rfl
@[simp] theorem refuse_dlen (c : Cause) (s : State) : (refuse c s).dlen = s.dlen := rfl
@[simp] theorem refuse_phase (c : Cause) (s : State) : (refuse c s).phase = s.phase := rfl
@[simp] theorem refuse_output (c : Cause) (s : State) : (refuse c s).output = s.output := rfl
@[simp] theorem refuse_input (c : Cause) (s : State) : (refuse c s).input = s.input := rfl
@[simp] theorem refuse_micro (c : Cause) (s : State) : (refuse c s).micro = s.micro := rfl
@[simp] theorem refuse_draws (c : Cause) (s : State) : (refuse c s).draws = s.draws := rfl
@[simp] theorem assertRst_buffer (s : State) : (assertRst s).buffer = freeBuffer s.draws := rfl
@[simp] theorem assertRst_phase (s : State) : (assertRst s).phase = .idle := rfl
@[simp] theorem assertRst_err (s : State) : (assertRst s).err = false := rfl
@[simp] theorem assertRst_cause (s : State) : (assertRst s).cause = .none := rfl
@[simp] theorem assertRst_input (s : State) : (assertRst s).input = s.input := by simp only [assertRst]
@[simp] theorem assertRst_micro (s : State) : (assertRst s).micro = none := rfl
@[simp] theorem dropFill_lanes (s : State) : (dropFill s).lanes = s.lanes := rfl
@[simp] theorem dropFill_buffer (s : State) : (dropFill s).buffer = s.buffer := rfl
@[simp] theorem dropFill_rate (s : State) : (dropFill s).rate = s.rate := rfl
@[simp] theorem dropFill_dlen (s : State) : (dropFill s).dlen = s.dlen := rfl
@[simp] theorem dropFill_phase (s : State) : (dropFill s).phase = s.phase := rfl
@[simp] theorem dropFill_err (s : State) : (dropFill s).err = s.err := rfl
@[simp] theorem dropFill_cause (s : State) : (dropFill s).cause = s.cause := rfl
@[simp] theorem dropFill_output (s : State) : (dropFill s).output = s.output := rfl
@[simp] theorem dropFill_input (s : State) : (dropFill s).input = s.input := rfl
@[simp] theorem dropFill_micro (s : State) : (dropFill s).micro = s.micro := rfl

/-- The padded block keeps the canonical form. -/
theorem padMemory_wf {b : Memory} (hb : Memory.wf b) {f rate : Nat} (hf : f < rate) (hr : rate ≤ 200) :
    Memory.wf (padMemory b f rate) := by
  have h1 := Memory.write_wf hb (show f < 200 by omega) firstPadByte
  exact Memory.write_wf (Memory.writeRun_wf _ h1 (by show _ ≤ 200; omega)) (by show _ < 200; omega) _

/-- The bytes of the padded block: the staged bytes, the first padding byte, zeros, and the mask ORed into the last. -/
theorem read_padMemory {b : Memory} (hb : Memory.wf b) {f rate : Nat} (hf : f < rate) (hr : rate ≤ 200) (k : Nat) :
    Memory.read (padMemory b f rate) k =
      if k < f ∨ rate ≤ k then Memory.read b k
      else (if k = f then firstPadByte else 0#8) ||| (if k = rate - 1 then lastPadMask else 0#8) := by
  have h1 := Memory.write_wf hb (show f < 200 by omega) firstPadByte
  have h2 := Memory.writeRun_wf (fun _ => 0#8) h1 (a := f + 1) (n := rate - (f + 1)) (by show _ ≤ 200; omega)
  have mid : ∀ j, Memory.read (Memory.writeRun (fun _ => 0#8) (Memory.write b f firstPadByte) (f + 1)
      (rate - (f + 1))) j = if j < f ∨ rate ≤ j then Memory.read b j else if j = f then firstPadByte else 0#8 := by
    intro j
    by_cases h : f + 1 ≤ j ∧ j < rate
    · rw [Memory.read_writeRun_inside _ h1 (by show _ ≤ 200; omega) h.1 (by omega)]
      simp [show ¬ (j < f ∨ rate ≤ j) by omega, show j ≠ f by omega]
    · rw [Memory.read_writeRun_outside _ _ (by omega)]
      by_cases hj : j = f
      · subst hj
        rw [Memory.read_write_same hb]
        simp [show ¬ rate ≤ j by omega]
      · rw [Memory.read_write_other _ _ hj]
        simp [show j < f ∨ rate ≤ j by omega]
  unfold padMemory
  by_cases hk : k = rate - 1
  · subst hk
    simp only [Memory.read_write_same h2, mid]
    simp [show ¬ (rate - 1 < f ∨ rate ≤ rate - 1) by omega]
  · simp only [Memory.read_write_other _ _ hk, mid, if_neg hk]
    simp

end Sys2Proof.Machine
end

