-- ==== Sys2Proof/Laws/Exec.lean ====
section
/-! SUPPORT. Inversion: what each meaning, each kind of input and a step can do when they answer a next state. -/

namespace Sys2Proof.Machine

/-! The operations without a precondition, as updates of the state. -/

theorem exec_init (sel : Selector) (s : State) : exec (.init sel) s =
    .next ((((s.setRates (blockSizeOf (variantOf sel)) (digestLengthOf (variantOf sel))).setLanes
      (Vector.replicate 25 0#64)).setFill 0#8).setPhase .absorbing) := rfl
theorem exec_theta (s : State) : exec .theta s = .next (s.setLanes (thetaLanes s.lanes)) := rfl
theorem exec_rhopi (s : State) : exec .rhopi s = .next (s.setLanes (rhoPiLanes s.lanes)) := rfl
theorem exec_chi (s : State) : exec .chi s = .next (s.setLanes (chiLanes s.lanes)) := rfl
theorem exec_iota {r : Nat} (h : r < Config.roundCount) (s : State) :
    exec (.iota r) s = .next (s.setLanes (iotaLanes ⟨r, h⟩ s.lanes)) := by
  simp only [exec, execIota, dif_pos h]

/-- The end of ABSORB on a block that is not full. -/
theorem closeFullBlock_of_ne {s : State} (h : s.fill ≠ s.rate) : closeFullBlock s = .next s := by
  simp [closeFullBlock, h]

/-- The end of ABSORB on a full block. -/
theorem closeFullBlock_of_eq {s : State} (h : s.fill = s.rate) (hr : s.rate.toNat ≤ 200) :
    closeFullBlock s =
      .next ((s.setLanes (keccakF (mixLanes s.lanes s.buffer s.rate.toNat))).setFill 0#8) := by
  simp only [closeFullBlock, if_pos h, permuteState_eq_next.2 ⟨hr, rfl⟩, andThen_next]

theorem execAbsorb_cases {byte : Byte} {s t : State} (h : exec (.absorb byte) s = .next t) :
    (s.phase ≠ .absorbing ∧ t = refuse .wrongPhase s) ∨
    (s.phase = .absorbing ∧ s.fill.toNat < 200 ∧ s.fill + 1 ≠ s.rate ∧
      t = (s.setBuffer (Memory.write s.buffer s.fill.toNat byte)).setFill (s.fill + 1)) ∨
    (s.phase = .absorbing ∧ s.fill.toNat < 200 ∧ s.fill + 1 = s.rate ∧
      t = ((s.setBuffer (Memory.write s.buffer s.fill.toNat byte)).setLanes
        (keccakF (mixLanes s.lanes (Memory.write s.buffer s.fill.toNat byte) s.rate.toNat))).setFill 0#8) := by
  change execAbsorb byte s = .next t at h
  unfold execAbsorb at h
  rcases whileAbsorbing_cases s _ with ⟨hp, e⟩ | ⟨hp, e⟩ <;> rw [e] at h
  · obtain ⟨u, hu, h⟩ := andThen_eq_next.1 h
    obtain ⟨hf, rfl⟩ := storeByte_eq_next.1 hu
    have hlt : (s.fill + 1).toNat ≤ 200 := by bv_omega
    by_cases hr : s.fill + 1 = s.rate
    · rw [closeFullBlock_of_eq hr (by show s.rate.toNat ≤ 200; rw [← hr]; exact hlt)] at h
      injection h with h
      exact .inr (.inr ⟨hp, hf, hr, h.symm⟩)
    · rw [closeFullBlock_of_ne hr] at h
      injection h with h
      exact .inr (.inl ⟨hp, hf, hr, h.symm⟩)
  · injection h with h
    exact .inl ⟨hp, h.symm⟩

theorem execFinal_cases {s t : State} (h : exec .final s = .next t) :
    (s.phase ≠ .absorbing ∧ t = refuse .wrongPhase s) ∨
    (s.phase = .absorbing ∧ ∃ u, padState s = .next u ∧ s.rate.toNat ≤ 200 ∧ s.dlen.toNat ≤ 200 ∧
      t = (dropFill ((u.setLanes (keccakF (mixLanes u.lanes u.buffer u.rate.toNat))).setOutput
        (bytesOfLanes (keccakF (mixLanes u.lanes u.buffer u.rate.toNat)) u.dlen.toNat))).setPhase .done) := by
  change execFinal s = .next t at h
  unfold execFinal at h
  rcases whileAbsorbing_cases s _ with ⟨hp, e⟩ | ⟨hp, e⟩ <;> rw [e] at h
  · obtain ⟨u, hu, h⟩ := andThen_eq_next.1 h
    obtain ⟨v, hv, h⟩ := andThen_eq_next.1 h
    obtain ⟨w, hw, h⟩ := andThen_eq_next.1 h
    obtain ⟨-, rfl⟩ := permuteState_eq_next.1 hv
    obtain ⟨hd, rfl⟩ := squeezeState_eq_next.1 hw
    obtain ⟨-, -, hr, e2⟩ := padState_eq_next.1 hu
    injection h with h
    exact .inr ⟨hp, u, hu, hr, by simpa [e2] using hd, h.symm⟩
  · injection h with h
    exact .inl ⟨hp, h.symm⟩

/-- The words of the command port: a command is performed, any other word is refused with its cause. -/
theorem acceptCommand_cases (w : Word) (s : State) :
    (∃ i, decodeCommand w = .ok i ∧ acceptCommand w s = exec i s) ∨
    (∃ c, (c = .illegalOpcode ∨ c = .illegalOperand) ∧ acceptCommand w s = .next (refuse c s)) := by
  unfold acceptCommand
  rcases decodeCommand w with (_ | _) | i
  · exact .inr ⟨_, .inl rfl, rfl⟩
  · exact .inr ⟨_, .inr rfl, rfl⟩
  · exact .inl ⟨i, rfl, rfl⟩

/-- What a decoded command word can be. -/
theorem decodeCommand_cases {w : Word} {i : Instr} (h : decodeCommand w = .ok i) :
    i = .init (argField w) ∨ i = .absorb (byteField w) ∨ i = .final := by
  unfold decodeCommand at h
  repeat' split at h
  all_goals simp_all

/-- Everything one step can be: it holds the state, runs a micro-operation, resets, performs a command or refuses a
word. -/
theorem step_cases (s : State) :
    (s.micro = none ∧ s.input = [] ∧ step s = .next s) ∨
    (∃ m, s.micro = some m ∧ step s = runMicro m (s.setMicro none)) ∨
    (s.micro = none ∧ ∃ rest, s.input = .rst :: rest ∧ step s = .next (assertRst (s.setInput rest))) ∨
    (s.micro = none ∧ ∃ w rest i, s.input = .command w :: rest ∧ decodeCommand w = .ok i ∧
      step s = exec i (s.setInput rest)) ∨
    (s.micro = none ∧ ∃ w rest c, s.input = .command w :: rest ∧ (c = .illegalOpcode ∨ c = .illegalOperand) ∧
      step s = .next (refuse c (s.setInput rest))) := by
  unfold step
  cases hm : s.micro with
  | some m => exact .inr (.inl ⟨m, rfl, rfl⟩)
  | none =>
    refine (?_ : _ ∨ _)
    cases hi : s.input with
    | nil => exact .inl ⟨rfl, rfl, rfl⟩
    | cons e rest =>
      cases e with
      | rst => exact .inr (.inr (.inl ⟨rfl, rest, rfl, rfl⟩))
      | command w =>
        rcases acceptCommand_cases w (s.setInput rest) with ⟨i, hd, he⟩ | ⟨c, hc, he⟩
        · exact .inr (.inr (.inr (.inl ⟨rfl, w, rest, i, rfl, hd, he⟩)))
        · exact .inr (.inr (.inr (.inr ⟨rfl, w, rest, c, rfl, hc, he⟩)))

/-- A command word at the head of the host's input is what the next step accepts. -/
theorem step_command {s : State} {w : Word} {rest : List HostInput} (hm : s.micro = none)
    (hi : s.input = .command w :: rest) : step s = acceptCommand w (s.setInput rest) := by
  unfold step
  rw [hm, hi]
  rfl

theorem step_rst {s : State} {rest : List HostInput} (hm : s.micro = none) (hi : s.input = .rst :: rest) :
    step s = .next (assertRst (s.setInput rest)) := by
  unfold step
  rw [hm, hi]
  rfl

end Sys2Proof.Machine
end

