-- ==== Sys2Proof/Laws/PerInstr.lean ====
section
/-! SUPPORT. Statements made per instruction: through which of the two encodings each is named. -/

namespace Sys2Proof.Laws.Port

/-- The host commands have a command word (30_encoding.md R47); the micro-operations have a step code and no command
word (R55). -/
def Statement (i : Instr) : Prop :=
  (∃ w, encode i = .command w) ↔ ((∃ sel, i = .init sel) ∨ (∃ b, i = .absorb b) ∨ i = .final)

theorem init (sel : Selector) : Statement (.init sel) := by simp [Statement, encode]
theorem absorb (byte : Byte) : Statement (.absorb byte) := by simp [Statement, encode]
theorem final : Statement .final := by simp [Statement, encode]
theorem mix : Statement .mix := by simp [Statement, encode]
theorem theta : Statement .theta := by simp [Statement, encode]
theorem rhopi : Statement .rhopi := by simp [Statement, encode]
theorem chi : Statement .chi := by simp [Statement, encode]
theorem iota (r : Nat) : Statement (.iota r) := by simp [Statement, encode]
theorem pad : Statement .pad := by simp [Statement, encode]
theorem squeeze : Statement .squeeze := by simp [Statement, encode]

end Sys2Proof.Laws.Port
end

