-- ==== Sys2Proof/Laws/Streams.lean ====
section
/-! SUPPORT. Rotation, the digest port bit by bit, runs of steps and of operations, and the command words of a
stream. -/

namespace Sys2Proof.Machine

/-- The formula of R9 is the library's rotation. -/
theorem rotl64_eq_rotateLeft (x : Lane) {n : Nat} (h2 : n ≤ 63) : rotl64 x n = x.rotateLeft n := by
  simp [rotl64, BitVec.rotateLeft, BitVec.rotateLeftAux, Nat.mod_eq_of_lt (show n < 64 by omega)]

/-- A lane assembled from zero bytes. -/
theorem laneOfBytes_eq_zero (f : Nat → Byte) (i : Nat) (h : ∀ j, j < 8 → f (8 * i + j) = 0#8) :
    laneOfBytes f i = 0#64 := by
  apply BitVec.eq_of_getLsbD_eq
  intro n hn
  rw [laneOfBytes_getLsbD _ _ _ hn, h _ (by omega)]
  simp

/-- The block XOR of R95 is MIX on a buffer that holds the block. -/
theorem mixLanes_eq_xorBlock (a : Lanes) (b : Memory) (p : List Byte)
    (h : ∀ k, k < p.length → Memory.read b k = p.getD k 0#8) (hp : p.length ≤ 200) :
    mixLanes a b p.length = xorBlock a p := by
  apply lanes_eq_of_bytes
  intro k hk
  rw [byteOfLanes_mixLanes _ _ _ _ hk, xorBlock, byteOfLanes_xorBytes _ _ hp]
  split
  · rw [h _ (by assumption)]
  · simp

/-- Bit `j` of the packed bytes is bit `j mod 8` of byte `j div 8`. -/
theorem packBytes_getLsbD (l : List Byte) {j : Nat} (hj : j < 512) :
    (packBytes l).getLsbD j = (l.getD (j / 8) 0#8).getLsbD (j % 8) := by
  induction l generalizing j with
  | nil => simp [packBytes]
  | cons b bs ih =>
    simp only [packBytes, BitVec.getLsbD_or, BitVec.getLsbD_shiftLeft, BitVec.getLsbD_setWidth]
    by_cases h : j < 8
    · simp [h, hj, show j / 8 = 0 by omega, show j % 8 = j by omega]
    · rw [ih (by omega), BitVec.getLsbD_of_ge b j (by omega)]
      obtain ⟨c, hc⟩ : ∃ c, j / 8 = c + 1 := ⟨j / 8 - 1, by omega⟩
      simp [h, hj, hc, show (j - 8) / 8 = c by omega, show (j - 8) % 8 = j % 8 by omega]

/-- Byte `k` of the byte view's first `n` bytes. -/
theorem bytesOfLanes_getD (a : Lanes) (n k : Nat) :
    (bytesOfLanes a n).getD k 0#8 = if k < n then byteOfLanes a k else 0#8 := by
  simp only [bytesOfLanes, List.getD, List.getElem?_map]
  split
  · rw [List.getElem?_range (by assumption)]; rfl
  · rw [List.getElem?_eq_none (by simp; omega)]; rfl

theorem padBytes_length {n : Nat} (h : 0 < n) : (padBytes n).length = n := by
  unfold padBytes
  split
  · subst n; rfl
  · simp; omega

@[simp] theorem runSteps_zero (s : State) : runSteps 0 s = .next s := rfl

theorem runSteps_succ (k : Nat) (s : State) : runSteps (k + 1) s = andThen (step s) (runSteps k) := rfl

theorem runSteps_add (a b : Nat) (s : State) : runSteps (a + b) s = andThen (runSteps a s) (runSteps b) := by
  induction a generalizing s with
  | zero => simp
  | succ a ih =>
    rw [Nat.add_right_comm]
    simp only [runSteps_succ, andThen_assoc]
    congr 1
    funext t
    exact ih t

theorem execAll_append (l m : List Instr) (s : State) : execAll (l ++ m) s = andThen (execAll l s) (execAll m) := by
  induction l generalizing s with
  | nil => rfl
  | cons i l ih =>
    simp only [List.cons_append, execAll, andThen_assoc]
    congr 1
    funext t
    exact ih t

/-- A step on the word of INIT. -/
theorem step_init {sel : Selector} {s : State} {rest : List HostInput} (hm : s.micro = none)
    (hi : s.input = commandOf (.init sel) ++ rest) : step s = exec (.init sel) (s.setInput rest) := by
  rw [step_command (rest := rest) hm (by rw [hi]; rfl)]
  simp [acceptCommand, decodeCommand]

/-- A step on the word of ABSORB. -/
theorem step_absorb {b : Byte} {s : State} {rest : List HostInput} (hm : s.micro = none)
    (hi : s.input = commandOf (.absorb b) ++ rest) : step s = exec (.absorb b) (s.setInput rest) := by
  rw [step_command (rest := rest) hm (by rw [hi]; rfl)]
  simp [acceptCommand, decodeCommand]

/-- A step on the word of FINAL. -/
theorem step_final {s : State} {rest : List HostInput} (hm : s.micro = none)
    (hi : s.input = commandOf .final ++ rest) : step s = exec .final (s.setInput rest) := by
  rw [step_command (rest := rest) hm (by rw [hi]; rfl)]
  rfl

/-- ABSORB in phase ABSORBING, before the end of the block is tested. -/
theorem exec_absorb (byte : Byte) {s : State} (hp : s.phase = .absorbing) (hf : s.fill.toNat < 200) :
    exec (.absorb byte) s =
      closeFullBlock ((s.setBuffer (Memory.write s.buffer s.fill.toNat byte)).setFill (s.fill + 1)) := by
  change execAbsorb byte s = _
  unfold execAbsorb
  rcases whileAbsorbing_cases s _ with ⟨-, e⟩ | ⟨h, -⟩
  · rw [e, storeByte_eq_next.2 ⟨hf, rfl⟩, andThen_next]; rfl
  · exact absurd hp h

/-- ABSORB and FINAL outside phase ABSORBING. -/
theorem exec_wrongPhase {i : Instr} {s : State} (hi : (∃ b, i = .absorb b) ∨ i = .final)
    (hp : s.phase ≠ .absorbing) : exec i s = .next (refuse .wrongPhase s) := by
  rcases hi with ⟨b, rfl⟩ | rfl
  · change execAbsorb b s = _
    unfold execAbsorb
    rcases whileAbsorbing_cases s _ with ⟨h, -⟩ | ⟨-, e⟩
    · exact absurd h hp
    · exact e
  · change execFinal s = _
    unfold execFinal
    rcases whileAbsorbing_cases s _ with ⟨h, -⟩ | ⟨-, e⟩
    · exact absurd h hp
    · exact e

/-- FINAL in phase ABSORBING with its registers in range, as one update. -/
theorem exec_final {s : State} (hp : s.phase = .absorbing) (hf : s.fill.toNat < s.rate.toNat)
    (hr : s.rate.toNat ≤ 200) (hd : s.dlen.toNat ≤ 200) :
    let b := padMemory s.buffer s.fill.toNat s.rate.toNat
    let a := keccakF (mixLanes s.lanes b s.rate.toNat)
    exec .final s = .next ((dropFill ((((s.setBuffer b).setFill (s.fill + 1)).setLanes a).setOutput
      (bytesOfLanes a s.dlen.toNat))).setPhase .done) := by
  change execFinal s = _
  unfold execFinal
  rcases whileAbsorbing_cases s _ with ⟨-, e⟩ | ⟨h, -⟩
  · rw [e, padState_eq_next.2 ⟨?_, by omega, hr, rfl⟩, andThen_next,
      permuteState_eq_next.2 ⟨by simpa using hr, rfl⟩, andThen_next,
      squeezeState_eq_next.2 ⟨by simpa using hd, rfl⟩, andThen_next]
    · simp
    · intro h
      simp [h] at hf
  · exact absurd hp h

end Sys2Proof.Machine
end

