-- ==== Sys2Proof/Tests/Slice0.lean ====
section
/-! SUPPORT. Tests on fixed values, each expected result from spec/95_test_vectors.md or from the example of the
rule named, and the witnesses: for every statement with hypotheses, concrete states and operands that meet them. -/

namespace Sys2Proof.Tests

open Sys2Proof.Machine

/-! ### Helpers -/

/-- The outcome is a next state that passes the test. -/
def nextHas (r : Result) (p : State → Bool) : Bool :=
  match r with
  | .next s => p s
  | .fault _ => false
  | .refused _ => false

/-- Lanes that are zero but for those listed. -/
def lanesOf (l : List (Fin 25 × Lane)) : Lanes :=
  l.foldl (fun a c => a.set c.1.val c.2) (Vector.replicate 25 0#64)

/-- Reset, with lanes. -/
def withLanes (l : List (Fin 25 × Lane)) : State := State.reset.setLanes (lanesOf l)

/-- A state of phase ABSORBING, variant 256, all lanes 0, with its staged bytes. -/
def absorbing (fill : Byte) (b : Memory) : State :=
  ((State.reset.setPhase .absorbing).setFill fill).setBuffer b

/-- A state of phase DONE, variant 256, whose output is the digest of its lanes. -/
def finished : State := (State.reset.setPhase .done).setOutput (List.replicate 32 0#8)

/-- The host presents one word. -/
def given (w : Word) (s : State) : State := s.setInput [.command w]

/-- A command stream for the witnesses, and one word after it. -/
def stream (l : List HostInput) : State := State.reset.setInput (l ++ [.command 0x4000#16])

/-- V16's state: `A[i] = 0x0123456789ABCDEF * (i + 1)`. -/
def v16 : Lanes := Vector.ofFn fun i => 0x0123456789ABCDEF#64 * BitVec.ofNat 64 (i.val + 1)

/-! ### Decoding (R47, R55): words written out bit by bit -/

theorem test_decode_init : decodeCommand 0b0001000011100000#16 = .ok (.init 0b000011100000#12) := rfl
theorem test_decode_init_any : decodeCommand 0b0001111111111111#16 = .ok (.init 4095#12) := rfl
theorem test_decode_absorb : decodeCommand 0b0010000001100001#16 = .ok (.absorb 0b01100001#8) := rfl
theorem test_decode_final : decodeCommand 0b0011000000000000#16 = .ok .final := rfl
theorem test_decode_mix : decodeMicro ⟨0b000#3, 0⟩ = .ok .mix := rfl
theorem test_decode_theta : decodeMicro ⟨0b001#3, 0⟩ = .ok .theta := rfl
theorem test_decode_rhopi : decodeMicro ⟨0b010#3, 0⟩ = .ok .rhopi := rfl
theorem test_decode_chi : decodeMicro ⟨0b011#3, 0⟩ = .ok .chi := rfl
theorem test_decode_iota : decodeMicro ⟨0b100#3, 23⟩ = .ok (.iota 23) := rfl
theorem test_decode_pad : decodeMicro ⟨0b101#3, 0⟩ = .ok .pad := rfl
theorem test_decode_squeeze : decodeMicro ⟨0b110#3, 0⟩ = .ok .squeeze := rfl

/-- V19: the illegal words. -/
theorem test_decode_illegal :
    decodeCommand 0x0000#16 = .error .illegalOpcode ∧ decodeCommand 0x4000#16 = .error .illegalOpcode ∧
    decodeCommand 0xFFFF#16 = .error .illegalOpcode ∧ decodeCommand 0x2100#16 = .error .illegalOperand ∧
    decodeCommand 0x2F61#16 = .error .illegalOperand ∧ decodeCommand 0x3001#16 = .error .illegalOperand :=
  ⟨rfl, rfl, rfl, rfl, rfl, rfl⟩

/-- R55, R69: the codes that name no operation. -/
theorem test_decode_no_micro_operation :
    decodeMicro ⟨7, 0⟩ = .error .unusedCode ∧ decodeMicro ⟨4, 24⟩ = .error .roundOutOfRange ∧
    decodeMicro ⟨0, 1⟩ = .error .strayRound := ⟨rfl, rfl, rfl⟩

/-- Every row of the opcode table, with its operand bits 0 (the UOP rows have 3 bits). -/
theorem test_table_rows :
    [(16, 0x1000), (16, 0x2000), (16, 0x3000), (3, 0), (3, 1), (3, 2), (3, 3), (3, 4), (3, 5), (3, 6)].map
      (fun c : Nat × Nat => decodeTableWord c.1 c.2) =
    [some (.init 0), some (.absorb 0), some .final, some .mix, some .theta, some .rhopi, some .chi, some (.iota 0),
      some .pad, some .squeeze] := by decide

/-- The same rows in whole bytes run as the first step after reset; ABSORB and FINAL are refused by the engine (V1A),
which is a next state. -/
theorem test_table_rows_run :
    [(16, 0x1000), (16, 0x2000), (16, 0x3000), (8, 0), (8, 1), (8, 2), (8, 3), (8, 4), (8, 5), (8, 6)].all
      (fun c : Nat × Nat => nextHas (step (State.reset.withFetchWord c.1 c.2)) fun t => t.micro.isNone && t.input.isEmpty)
      = true := by decide

/-- WellFormed: the one ill-formed term, an IOTA of round 24, is refused (R69), round 23 is not. -/
theorem test_wellFormed_iota :
    (Instr.iota 24).wellFormed = false ∧ (Instr.iota 23).wellFormed = true ∧ decode (encode (.iota 24)) = none := by
  decide

/-! ### Instructions: the spec's examples and vectors -/

/-- V1A: 0x1100 after reset. -/
theorem test_init_after_reset :
    nextHas (step (given 0x1100#16 State.reset)) (fun t => t.phase == .absorbing && t.fill == 0#8 && t.rate == 136#8 &&
      t.dlen == 32#8 && !t.err && t.lanes == lanesOf []) = true := by decide

/-- V1A: 0x1200 in phase ABSORBING; V40: an unrecognised selector is 256. -/
theorem test_init_abandons :
    nextHas (step (given 0x1200#16 (absorbing 5#8 []))) (fun t => t.rate == 72#8 && t.dlen == 64#8 && t.fill == 0#8) &&
    nextHas (step (given 0x13E7#16 (absorbing 5#8 []))) (fun t => t.rate == 136#8 && t.dlen == 32#8) = true := by decide

/-- V1A: 0x20AB with `fill = 5`. -/
theorem test_absorb_stores :
    nextHas (step (given 0x20AB#16 (absorbing 5#8 []))) (fun t => Memory.read t.buffer 5 == 0xAB#8 && t.fill == 6#8 &&
      t.lanes == lanesOf []) = true := by decide

/-- P5: the 136th ABSORB of the bytes 0 to 135. -/
theorem test_absorb_fills_the_block :
    nextHas (step (given 0x2087#16 (absorbing 135#8 ((List.range 134).map fun k => (k + 1, BitVec.ofNat 8 (k + 1))))))
      (fun t => t.fill == 0#8 && t.phase == .absorbing && t.lanes[0] == 0xC9834334D2362F28#64 &&
        t.lanes[24] == 0x9513375F3F9B8919#64) = true := by decide +kernel

/-- P1, V1, V12: FINAL straight after INIT 256: SHA3-256 of the empty message, whatever the buffer held. -/
theorem test_final_of_the_empty_message :
    nextHas (step (given 0x3000#16 (absorbing 0#8 [(0, 0x11#8), (135, 0x14#8)]))) (fun t => t.phase == .done &&
      t.lanes[0] == 0x66D71EBFF8C6FFA7#64 && t.lanes[24] == 0x92136E0EFB7B70E5#64 && !t.err &&
      t.digestPort ==
        some 0x4A43F8804B0AD882FA493BE44DFF80F562D661A05647C15166D71EBFF8C6FFA7#512 &&
      t.output.take 8 == [0xA7#8, 0xFF#8, 0xC6#8, 0xF8#8, 0xBF#8, 0x1E#8, 0xD7#8, 0x66#8]) = true := by
  decide +kernel

/-- V18 (a): MIX at rate 72. -/
theorem test_mix_72 :
    nextHas (exec .mix ((absorbing 0#8 [(0, 0x61#8), (1, 0x06#8), (71, 0x80#8)]).setRates 72#8 64#8))
      (fun t => t.lanes == lanesOf [(0, 0x661#64), (8, 0x8000000000000000#64)]) = true := by decide +kernel

/-- V18 (c): MIX at rate 136 does not touch lane 17, even with a stale byte above the rate. -/
theorem test_mix_136 :
    nextHas (exec .mix (absorbing 0#8 ((List.range 136).map fun k => (k + 1, BitVec.ofNat 8 (k + 1)))))
      (fun t => t.lanes[0] == 0x0706050403020100#64 && t.lanes[16] == 0x8786858483828180#64 && t.lanes[17] == 0#64) =
      true := by decide +kernel

/-- V13 (b): THETA wraps bit 63 to bit 0. -/
theorem test_theta_wraps :
    nextHas (exec .theta (withLanes [(7, 0x8000000000000000#64)])) (fun t => t.lanes == lanesOf
      [(1, 1#64), (3, 0x8000000000000000#64), (6, 1#64), (7, 0x8000000000000000#64), (8, 0x8000000000000000#64), (11, 1#64),
        (13, 0x8000000000000000#64), (16, 1#64), (18, 0x8000000000000000#64), (21, 1#64),
        (23, 0x8000000000000000#64)]) = true := by decide +kernel

/-- V16: THETA of a state with all lanes different. -/
theorem test_theta_v16 :
    nextHas (exec .theta (State.reset.setLanes v16)) (fun t => t.lanes[0] == 0x10DC97FA507BDE84#64 &&
      t.lanes[13] == 0x2FE7C5C2B854E03D#64 && t.lanes[24] == 0x0EBB3C6EC813A9FD#64) = true := by decide +kernel

/-- R64's example: only lane 10 is written with a value that is not 0. -/
theorem test_rhopi_one_lane :
    nextHas (exec .rhopi (withLanes [(1, 1#64)])) (fun t => t.lanes == lanesOf [(10, 2#64)]) = true := by
  decide +kernel

/-- V16: RHOPI of a state with all lanes different. -/
theorem test_rhopi_v16 :
    nextHas (exec .rhopi (State.reset.setLanes v16)) (fun t => t.lanes[0] == 0x0123456789ABCDEF#64 &&
      t.lanes[1] == 0x2A18907F6E5D4C3B#64 && t.lanes[10] == 0x048D159E26AF37BC#64 &&
      t.lanes[24] == 0x641FDB97530ECA28#64) = true := by decide +kernel

/-- R68's example, in row 0; V15's third row, in row 4. -/
theorem test_chi_rows :
    nextHas (exec .chi (withLanes [(0, 1#64), (1, 2#64), (2, 4#64), (3, 8#64), (4, 16#64), (20, -1#64), (22, -1#64),
      (24, -1#64)])) (fun t => t.lanes == lanesOf
        [(0, 5#64), (1, 10#64), (2, 20#64), (3, 9#64), (4, 18#64), (24, -1#64)]) = true := by decide +kernel

/-- V16: CHI of a state with all lanes different. -/
theorem test_chi_v16 :
    nextHas (exec .chi (State.reset.setLanes v16)) (fun t => t.lanes[3] == 0x048E11FC2F0FFFF8#64 &&
      t.lanes[13] == 0x036F21CB6D058B56#64 && t.lanes[24] == 0x1472819DE5070E57#64) = true := by decide +kernel

/-- R69's example. -/
theorem test_iota_round_1 :
    nextHas (exec (.iota 1) State.reset) (fun t => t.lanes == lanesOf [(0, 0x8082#64)]) = true := by decide +kernel

/-- R70's check values of the table: the XOR and the OR of all 24 entries, and the two pairs of
equal entries. -/
theorem test_round_constants :
    rcTable.toList.foldl (· ^^^ ·) 0#64 = 0x800000000000800A#64 ∧
    rcTable.toList.foldl (· ||| ·) 0#64 = 0x800000008000808B#64 ∧ rcTable[5] = rcTable[22] ∧
    rcTable[6] = rcTable[20] := by decide

/-- R90's example: PAD at rate 72 with one byte staged. -/
theorem test_pad :
    nextHas (exec .pad ((absorbing 1#8 [(0, 0x61#8), (5, 0x77#8), (71, 0x14#8)]).setRates 72#8 64#8))
      (fun t => t.buffer == [(0, 0x61#8), (1, 0x06#8), (71, 0x80#8)]) = true := by decide +kernel

/-- R91: one free byte is padded with 0x86, and a byte above the rate stays. -/
theorem test_pad_one_free_byte :
    nextHas (exec .pad (absorbing 135#8 [(135, 0x14#8), (136, 0x55#8)]))
      (fun t => t.buffer == [(135, 0x86#8), (136, 0x55#8)] && t.fill == 136#8) = true := by decide +kernel

/-- R93's example. -/
theorem test_squeeze :
    nextHas (exec .squeeze (withLanes [(0, 0x66D71EBFF8C6FFA7#64)])) (fun t => t.output.length == 32 &&
      t.output.take 8 == [0xA7#8, 0xFF#8, 0xC6#8, 0xF8#8, 0xBF#8, 0x1E#8, 0xD7#8, 0x66#8]) = true := by decide +kernel

/-- V43: the digest of variant 224 ends inside lane 3, and the port reads 0 above it. -/
theorem test_squeeze_224 :
    nextHas (exec .squeeze ((finished.setRates 144#8 28#8).setLanes
      (lanesOf [(0, 0xB7DB673642034E6B#64), (3, 0x4FCDB16DC76B5A5B#64)])))
      (fun t => t.output.length == 28 && t.output.drop 24 == [0x5B#8, 0x5A#8, 0x6B#8, 0xC7#8] &&
        t.digestPort.map (fun d => d.extractLsb' 192 320) == some 0xC76B5A5B#320) = true := by decide +kernel

/-- V16: ROUND(0) of a state with all lanes different. -/
theorem test_round_v16 :
    ((roundLanes 0 v16)[0] == 0x53DCFFEEEA479E55#64 && (roundLanes 0 v16)[24] == 0x29C527E79E4D7683#64) = true := by
  decide +kernel

/-! ### Refusals (V1A) -/

theorem test_refused_after_reset :
    nextHas (step (given 0x2061#16 State.reset)) (fun t => t.err && t.cause == .wrongPhase && t.phase == .idle) &&
    nextHas (step (given 0x3000#16 State.reset)) (fun t => t.err && t.cause == .wrongPhase) = true := by decide

theorem test_refused_when_done :
    nextHas (step (given 0x2061#16 finished)) (fun t => t.err && t.cause == .wrongPhase && t.phase == .done &&
      t.lanes == finished.lanes) &&
    nextHas (step (given 0x2161#16 finished)) (fun t => t.err && t.cause == .illegalOperand) = true := by decide

theorem test_first_cause_is_kept :
    nextHas (step (given 0x0000#16 (finished.setFlags true .wrongPhase))) (fun t => t.err && t.cause == .wrongPhase) &&
    nextHas (step (given 0x1100#16 (finished.setFlags true .wrongPhase)))
      (fun t => t.err && t.cause == .wrongPhase && t.phase == .absorbing) = true := by decide

/-! ### Witnesses -/

/-- The invariant does not look at the host's input. -/
theorem given_inv {s : State} (h : s.Inv) (w : Word) : (given w s).Inv := ⟨h.1, h.2, h.3, h.4, h.5, h.6⟩

/-- The invariant holds in a state of phase ABSORBING whose block is one byte short of full. -/
theorem absorbing_inv : (absorbing 135#8 []).Inv where
  bufferCanonical := by decide
  microEmpty := rfl
  ratesLegal := fun _ => ⟨.v256, rfl, rfl⟩
  fillBelowRate := fun _ => by decide
  outputIsDigest := fun h => by cases h
  causeMatchesErr := by decide

/-- The invariant holds in a state of phase DONE. -/
theorem finished_inv : finished.Inv where
  bufferCanonical := by decide
  microEmpty := rfl
  ratesLegal := fun _ => ⟨.v256, rfl, rfl⟩
  fillBelowRate := fun h => by cases h
  outputIsDigest := fun _ => by decide
  causeMatchesErr := by decide

/-- The invariant holds in a state of phase IDLE. -/
theorem idle_inv : State.reset.Inv where
  bufferCanonical := by decide
  microEmpty := rfl
  ratesLegal := fun h => absurd rfl h
  fillBelowRate := fun h => by cases h
  outputIsDigest := fun h => by cases h
  causeMatchesErr := by decide

theorem witness_ResetAndRstClearTheStatusRegisters :
    ∃ (s : State) (rest : List HostInput), s.micro = none ∧ s.input = .rst :: rest ∧ s.phase = .done ∧ s.err = true :=
  ⟨(finished.setFlags true .wrongPhase).setInput [.rst], [], rfl, rfl, rfl, rfl⟩

theorem witness_EveryStepKeepsTheInvariant :
    (∃ s t, State.Inv s ∧ s.phase = .absorbing ∧ step s = .next t) ∧ (∃ s t, State.Inv s ∧ s.phase = .done ∧ step s = .next t) ∧
    ∃ s t, State.Inv s ∧ s.phase = .idle ∧ step s = .next t :=
  ⟨⟨_, _, given_inv absorbing_inv 0x1100#16, rfl, rfl⟩, ⟨_, _, given_inv finished_inv 0x2061#16, rfl, rfl⟩,
    ⟨_, _, given_inv idle_inv 0x4000#16, rfl, rfl⟩⟩

theorem witness_NoStepStopsUnderTheInvariant : ∃ s : State, s.Inv ∧ s.input = [.command 0x20AB#16] :=
  ⟨_, given_inv absorbing_inv 0x20AB#16, rfl⟩

theorem witness_StepRunsTheDecodedOperation :
    (∃ (s : State) (w : Word) (rest : List HostInput) (i : Instr), s.micro = none ∧ s.input = .command w :: rest ∧
      decodeCommand w = .ok i) ∧
    ∃ (s : State) (m : MicroWord) (i : Instr), s.micro = some m ∧ decodeMicro m = .ok i :=
  ⟨⟨given 0x2061#16 State.reset, 0x2061#16, [], .absorb 0x61#8, rfl, rfl, rfl⟩,
    ⟨State.reset.setMicro (some ⟨4, 23⟩), ⟨4, 23⟩, .iota 23, rfl, rfl⟩⟩

theorem witness_StepRunsThePlacedTableWord :
    decodeTableWord 16 0x2061 = some (.absorb 0x61#8) ∧ decodeTableWord 8 (4 + 8 * 23) = some (.iota 23) := by decide

theorem witness_IdleEngineHoldsItsState : State.reset.micro = none ∧ State.reset.input = [] := ⟨rfl, rfl⟩

/-- Each of the four classes of words, at the ends of its range. -/
theorem witness_CommandsAreTheMaskAndMatchSets :
    decodeCommand 0x1000#16 = .ok (.init 0#12) ∧ decodeCommand 0x1FFF#16 = .ok (.init 4095#12) ∧
    decodeCommand 0x2000#16 = .ok (.absorb 0#8) ∧ decodeCommand 0x20FF#16 = .ok (.absorb 255#8) ∧
    decodeCommand 0x3000#16 = .ok .final ∧ decodeCommand 0x0FFF#16 = .error .illegalOpcode ∧
    decodeCommand 0x2100#16 = .error .illegalOperand ∧ decodeCommand 0x3FFF#16 = .error .illegalOperand :=
  ⟨rfl, rfl, rfl, rfl, rfl, rfl, rfl, rfl⟩

theorem witness_DecodeAndEncodeAgree :
    (Instr.iota 23).wellFormed = true ∧ decode (.command 0x1FFF#16) = some (.init 4095#12) ∧
    decode (.micro ⟨4, 23⟩) = some (.iota 23) := by decide

theorem witness_NoCommandWordIssuesAMicroOperation :
    decodeCommand 0x3000#16 = .ok .final ∧ ∃ t, step (State.reset.setMicro (some ⟨1, 0⟩)) = .next t := ⟨rfl, _, rfl⟩

theorem witness_StepCodesWithoutMeaningAreRefused :
    ∃ a b c : MicroWord, a.code = 7#3 ∧ (b.code = 4#3 ∧ 24 ≤ b.round) ∧
      (c.code ≠ 4#3 ∧ c.code ≠ 7#3 ∧ c.round ≠ 0) ∧ (State.reset.setMicro (some a)).micro = some a :=
  ⟨⟨7, 0⟩, ⟨4, 24⟩, ⟨6, 1⟩, by decide⟩

/-- The four clauses: a reserved opcode, a reserved operand bit of ABSORB and of FINAL (both in a phase that would
refuse the well-formed word), a well-formed word in the wrong phase, and a performed one. -/
theorem witness_RefusalCausesAndEffect :
    (0xF000#16).extractLsb' 12 4 = 15#4 ∧
    ((0x2100#16).extractLsb' 12 4 = 2#4 ∧ (0x2100#16).extractLsb' 8 4 ≠ 0#4) ∧
    ((0x3001#16).extractLsb' 12 4 = 3#4 ∧ (0x3001#16).extractLsb' 0 12 ≠ 0#12) ∧
    ((0x20FF#16).extractLsb' 12 4 = 2#4 ∧ (0x20FF#16).extractLsb' 8 4 = 0#4) ∧
    (given 0x20FF#16 State.reset).phase ≠ .absorbing ∧ (given 0x20FF#16 (absorbing 5#8 [])).phase = .absorbing ∧
    (given 0x20FF#16 State.reset).micro = none ∧
    nextHas (step (given 0x20FF#16 (absorbing 5#8 []))) (fun _ => true) = true := by decide

/-- Every column and every row of R83's table. -/
theorem witness_PhaseMachine :
    (∀ w : Word, (given w State.reset).Inv ∧ (given w State.reset).phase = .idle) ∧
    (∀ w : Word, (given w (absorbing 135#8 [])).Inv ∧ (given w (absorbing 135#8 [])).phase = .absorbing) ∧
    (∀ w : Word, (given w finished).Inv ∧ (given w finished).phase = .done ∧
      (given w finished).input = .command w :: []) :=
  ⟨fun w => ⟨given_inv idle_inv w, rfl⟩, fun w => ⟨given_inv absorbing_inv w, rfl⟩, fun w => ⟨given_inv finished_inv w, rfl, rfl⟩⟩

theorem witness_OnlyInitFinalAndRstWriteThePhase :
    (∃ t, exec (.init 224#12) finished = .next t) ∧ (∃ t, exec .theta finished = .next t) ∧
    (∃ t, exec .final finished = .next t) ∧
    (absorbing 0#8 []).phase = .absorbing ∧ nextHas (exec .final (absorbing 0#8 [])) (fun _ => true) = true :=
  ⟨⟨_, rfl⟩, ⟨_, rfl⟩, ⟨_, rfl⟩, rfl, by decide +kernel⟩

theorem witness_ErrIsStickyAndKeepsTheFirstCause :
    ∃ s t : State, step s = .next t ∧ s.err = true ∧ (s.micro = none → s.input.head? ≠ some .rst) :=
  ⟨given 0x1100#16 (finished.setFlags true .wrongPhase), _, rfl, rfl, fun _ => by decide⟩

theorem witness_OnlyInitAndRstWriteRateAndDigestLength :
    (∃ t, step (given 0x1200#16 finished) = .next t) ∧ (∃ t, step (finished.setInput [.rst]) = .next t) ∧
    ∃ t, step (given 0x2061#16 finished) = .next t := ⟨⟨_, rfl⟩, ⟨_, rfl⟩, ⟨_, rfl⟩⟩

/-- Each selector clause of R80, and unrecognised selectors next to recognised ones. -/
theorem witness_InitStartsAFreshComputation :
    variantOf 224#12 = .v224 ∧ variantOf 384#12 = .v384 ∧ variantOf 512#12 = .v512 ∧ variantOf 256#12 = .v256 ∧
    variantOf 223#12 = .v256 ∧ variantOf 511#12 = .v256 ∧ variantOf 0#12 = .v256 := by decide

theorem witness_UnrecognisedSelectorRunsAs256 :
    State.reset.micro = none ∧ (4095#12 : Selector) ≠ 224#12 ∧ (4095#12 : Selector) ≠ 384#12 ∧
    (4095#12 : Selector) ≠ 512#12 := by decide

/-- The refused clause, the block not full, and the byte that fills it. -/
theorem witness_AbsorbStoresAByteAndPermutesAFullBlock :
    finished.phase ≠ .absorbing ∧
    ((absorbing 134#8 []).phase = .absorbing ∧ Memory.wf (absorbing 134#8 []).buffer ∧
      (absorbing 134#8 []).fill.toNat < 200 ∧ (absorbing 134#8 []).fill + 1 ≠ (absorbing 134#8 []).rate) ∧
    ((absorbing 135#8 []).phase = .absorbing ∧ Memory.wf (absorbing 135#8 []).buffer ∧
      (absorbing 135#8 []).fill.toNat < 200 ∧ (absorbing 135#8 []).fill + 1 = (absorbing 135#8 []).rate) := by decide

theorem witness_FinalPadsPermutesAndPresentsTheDigest :
    finished.phase ≠ .absorbing ∧
    (absorbing 135#8 []).phase = .absorbing ∧ Memory.wf (absorbing 135#8 []).buffer ∧
    (absorbing 135#8 []).fill.toNat < (absorbing 135#8 []).rate.toNat ∧ (absorbing 135#8 []).rate.toNat ≤ 200 ∧
    (absorbing 135#8 []).dlen.toNat ≤ 64 := by decide

theorem witness_CommandsRunTheirMicroOperations :
    (absorbing 135#8 []).phase = .absorbing ∧ (absorbing 135#8 []).fill + 1 = (absorbing 135#8 []).rate := by decide

theorem witness_DigestStaysUntilInitOrRst :
    ∃ t, (given 0x3000#16 finished).micro = none ∧ (given 0x3000#16 finished).phase = .done ∧
      step (given 0x3000#16 finished) = .next t := ⟨_, rfl, rfl, rfl⟩

/-- A refused and a performed ABSORB, a step of a round, a refused FINAL (whose `fill` is compared) and a performed one
(whose `fill` is not). -/
theorem witness_ControlDoesNotDependOnData :
    (∃ t, exec (.absorb 6#8) finished = .next t) ∧ (∃ t, exec .chi finished = .next t) ∧
    (∃ t, exec .final finished = .next t ∧ finished.phase ≠ .absorbing) ∧
    nextHas (exec (.absorb 6#8) (absorbing 5#8 [])) (fun _ => true) = true ∧
    nextHas (exec .final (absorbing 5#8 [])) (fun _ => true) = true :=
  ⟨⟨_, rfl⟩, ⟨_, rfl⟩, ⟨_, rfl, by decide⟩, by decide, by decide +kernel⟩

/-- The largest rate a byte space admits, a multiple of 8, with a block of zeros. -/
theorem witness_MixXorsTheBlockIntoTheRatePart :
    ((absorbing 0#8 []).setRates 200#8 64#8).rate.toNat = 200 ∧ 8 ∣ 200 ∧
    ∀ k, k < 200 → Memory.read ((absorbing 0#8 []).setRates 200#8 64#8).buffer k = 0#8 :=
  ⟨by decide, by decide, fun _ _ => rfl⟩

/-- A state with lanes that are not 0 and column parities that are. -/
theorem witness_ThetaAddsTheNeighbouringParities :
    ∀ x : Fin 5, columnParity (lanesOf [(2, 7#64), (17, 7#64)]) x = 0#64 := by decide

theorem witness_IotaBeyondRound23IsRefused : ∃ r : Nat, 24 ≤ r := ⟨24, by decide⟩

theorem witness_RotateLeftMovesEachBit :
    rotl64 1#64 63 = 0x8000000000000000#64 ∧ rotl64 0x8000000000000000#64 1 = 1#64 ∧ 1 ≤ 63 ∧ 63 ≤ 63 := by decide

/-- An empty block and a block with one free byte. -/
theorem witness_PadBuildsThePaddedBlock :
    (Memory.wf (absorbing 0#8 []).buffer ∧ (absorbing 0#8 []).fill.toNat < (absorbing 0#8 []).rate.toNat) ∧
    (absorbing 135#8 []).fill.toNat < (absorbing 135#8 []).rate.toNat ∧ (absorbing 135#8 []).rate.toNat ≤ 200 := by
  decide

theorem witness_OneFreeByteIsPaddedWith86 :
    Memory.wf (absorbing 135#8 []).buffer ∧
    (absorbing 135#8 []).fill.toNat + 1 = (absorbing 135#8 []).rate.toNat ∧ (absorbing 135#8 []).rate.toNat ≤ 200 := by
  decide

theorem witness_SqueezeCopiesTheFirstBytes :
    finished.dlen.toNat ≤ 200 ∧ finished.phase = .done ∧ finished.dlen.toNat ≤ 64 ∧
    (State.reset.setRates 136#8 200#8).dlen.toNat ≤ 200 := by decide

/-- The last byte of the byte view, a byte of another lane, and the first. -/
theorem witness_ByteViewIsTheLanesLittleEndian : 199 / 8 < 25 ∧ 199 < 200 ∧ 0 ≠ 199 ∧ (0 : Fin 25).val ≠ 199 / 8 := by
  decide

/-- The longest digest: 64 bytes, eight whole lanes. -/
theorem witness_DigestPortShowsTheFirstBytes :
    (finished.setRates 72#8 64#8).phase = .done ∧ (finished.setRates 72#8 64#8).dlen.toNat = 64 ∧
    8 * (7 : Fin 8).val + 8 ≤ 64 ∧ 8 * 64 ≤ 512 := by decide

theorem witness_OneSqueezeSuffices : ∃ s : State, s.Inv ∧ s.phase = .done := ⟨_, given_inv finished_inv 0x1100#16, rfl⟩

/-- One state for each clause, at the smallest value that leaves the space. -/
theorem witness_OffsetsOutsideTheSpacesFault :
    200 < (State.reset.setRates 201#8 32#8).rate.toNat ∧ 200 ≤ (absorbing 200#8 []).fill.toNat ∧
    (State.reset.setRates 0#8 32#8).rate = 0#8 ∧ 200 < (State.reset.setRates 136#8 201#8).dlen.toNat ∧
    (absorbing 200#8 []).phase = .absorbing ∧ 200 < ((absorbing 0#8 []).setRates 136#8 201#8).dlen.toNat := by decide

/-- A message of one byte less than a block, and of a whole block. -/
theorem witness_StateAfterAbsorbingAMessage :
    (stream (commandOf (.init 512#12) ++ absorbStream (List.replicate 71 0#8))).micro = none ∧
    Memory.wf (stream (commandOf (.init 512#12) ++ absorbStream (List.replicate 72 0#8))).buffer ∧
    (stream (commandOf (.init 512#12) ++ absorbStream (List.replicate 72 0#8))).input =
      commandOf (.init 512#12) ++ absorbStream (List.replicate 72 0#8) ++ [.command 0x4000#16] :=
  ⟨rfl, by decide, rfl⟩

theorem witness_HashStreamComputesTheSpongeFunction :
    (stream (hashStream 0#12 [])).micro = none ∧ Memory.wf (stream (hashStream 0#12 [])).buffer ∧
    (stream (hashStream 0#12 [])).input = hashStream 0#12 [] ++ [.command 0x4000#16] := ⟨rfl, by decide, rfl⟩

/-- Either part empty, and both; the hypotheses are on the state alone. -/
theorem witness_IncrementalAbsorbGivesTheSameDigest :
    finished.micro = none ∧ Memory.wf finished.buffer ∧ absorbStream [] = [] ∧
    absorbStream [0x61#8] = [.command 0x2061#16] := by decide

/-- SQUEEZE, a performed FINAL, and instructions that leave the output alone, INIT and a refused FINAL among them. -/
theorem witness_OnlySqueezeAndFinalWriteTheOutput :
    (∃ t, exec .squeeze finished = .next t) ∧ (∃ t, exec (.init 224#12) finished = .next t) ∧
    (∃ t, exec .final finished = .next t ∧ ¬ (Instr.final = .final ∧ finished.phase = .absorbing)) ∧
    (absorbing 0#8 []).phase = .absorbing ∧ nextHas (exec .final (absorbing 0#8 [])) (fun _ => true) = true :=
  ⟨⟨_, rfl⟩, ⟨_, rfl⟩, ⟨_, rfl, by decide⟩, rfl, by decide +kernel⟩

/-- Two engines with different stale bytes and phases, with equal flags. -/
theorem witness_EnginesGivenTheSameWordsFromInitAgree :
    ∃ (s1 s2 : State) (sel : Selector) (words : List Word), s1.micro = none ∧ s2.micro = none ∧
      Memory.wf s1.buffer ∧ Memory.wf s2.buffer ∧ s1.buffer ≠ s2.buffer ∧ s1.phase ≠ s2.phase ∧ s1.err = s2.err ∧ s1.cause = s2.cause ∧
      s1.input = commandOf (.init sel) ++ words.map .command ∧ s2.input = commandOf (.init sel) ++ words.map .command :=
  ⟨State.reset.setInput [.command 0x1100#16, .command 0x2161#16],
    (absorbing 5#8 [(135, 0x14#8)]).setInput [.command 0x1100#16, .command 0x2161#16], 256#12, [0x2161#16],
    by decide⟩

end Sys2Proof.Tests
end

section
/-! PROOFS, family 00_scope. Rotation (R9): one bit of a rotated lane, and from it the laws of rotation and O32. -/

namespace Sys2Proof.Machine

/-- Bit `k` of a rotated lane comes from `n` places below, around the end; `63 * n` stands for `- n`. -/
theorem getLsbD_rotateLeft_lane (x : Lane) (n : Nat) {k : Nat} (hk : k < 64) :
    (x.rotateLeft n).getLsbD k = x.getLsbD ((k + 63 * n) % 64) := by
  rw [BitVec.getLsbD_rotateLeft]
  by_cases h : k < n % 64
  · simp only [h, decide_true, cond_true]
    congr 1; omega
  · simp only [h, hk, decide_false, decide_true, cond_false, Bool.true_and]
    congr 1; omega

theorem rotateLeft_xor (x y : Lane) (n : Nat) :
    (x ^^^ y).rotateLeft n = x.rotateLeft n ^^^ y.rotateLeft n := by
  apply BitVec.eq_of_getLsbD_eq
  intro k hk
  simp only [BitVec.getLsbD_xor, getLsbD_rotateLeft_lane _ _ hk]

theorem rotateLeft_rotateLeft (x : Lane) (m n : Nat) :
    (x.rotateLeft m).rotateLeft n = x.rotateLeft (m + n) := by
  apply BitVec.eq_of_getLsbD_eq
  intro k hk
  rw [getLsbD_rotateLeft_lane _ _ hk, getLsbD_rotateLeft_lane _ _ (by omega), getLsbD_rotateLeft_lane _ _ hk]
  congr 1; omega

theorem rotateLeft_full_turns (x : Lane) (m : Nat) : x.rotateLeft (64 * m) = x := by
  rw [← BitVec.rotateLeft_mod_eq_rotateLeft, Nat.mul_mod_right]
  apply BitVec.eq_of_getLsbD_eq
  intro k hk
  rw [getLsbD_rotateLeft_lane _ _ hk]
  congr 1; omega

/-- Rotating on to a multiple of 64 undoes a rotation. -/
theorem rotateLeft_injective (n : Nat) : Function.Injective fun x : Lane => x.rotateLeft n :=
  Function.LeftInverse.injective (g := fun x : Lane => x.rotateLeft (63 * n)) fun x => by
    simp only [rotateLeft_rotateLeft, show n + 63 * n = 64 * n by omega, rotateLeft_full_turns]

/-- R9: `rotl64` by 1..63 moves bit `k` to bit `(k + n) mod 64`. -/
theorem rotl64_getLsbD_moved (x : Lane) {n k : Nat} (hn : n ≤ 63) (hk : k < 64) :
    (rotl64 x n).getLsbD ((k + n) % 64) = x.getLsbD k := by
  rw [rotl64_eq_rotateLeft x hn, getLsbD_rotateLeft_lane _ _ (by omega)]
  congr 1; omega

theorem rotl64_injective {n : Nat} (hn : n ≤ 63) : Function.Injective fun x => rotl64 x n := by
  simpa only [rotl64_eq_rotateLeft _ hn] using rotateLeft_injective n

/-- R9, R66: every amount of the rotation table is one that `rotl64` is specified for. -/
theorem rotTable_range : ∀ i : Fin 24, 1 ≤ rotTable[i] ∧ rotTable[i] ≤ 63 := by decide

/-- Settles O32, from the one-bit law of rotation and the table's range. -/
theorem rotateLeftMovesEachBit : Obligations.RotateLeftMovesEachBit :=
  ⟨fun x _ _ hn => ⟨rfl, fun _ hk => rotl64_getLsbD_moved x hn hk⟩, rotTable_range⟩

end Sys2Proof.Machine
end

section
/-! PROOFS, family 00_scope. KECCAK_F is a permutation (R1, R60): each step of a round is injective, and the lane
states are finitely many.

* THETA acts on the five column parities as `columnMix 1 1`. Over XOR its square is `columnMix 2 2`, and so on: after
  six squarings the rotation is a whole turn, and what is left is undone by one more squaring of itself.
* RHOPI moves each lane of a chain that visits every lane but lane 0 to the chain's next lane, rotated.
* CHI has an inverse on each row of five lanes.
* IOTA is its own inverse. -/

namespace Sys2Proof.Machine

/-! ### THETA -/

/-- What THETA XORs into column `x`, with a distance of `k` columns and a rotation by `n` in place of 1 and 1. -/
def columnNeighbours (k : Fin 5) (n : Nat) (c : Fin 5 → Lane) (x : Fin 5) : Lane :=
  c (x - k) ^^^ (c (x + k)).rotateLeft n

/-- THETA on the column parities, with a distance of `k` columns and a rotation by `n` in place of 1 and 1. -/
def columnMix (k : Fin 5) (n : Nat) (c : Fin 5 → Lane) (x : Fin 5) : Lane :=
  c x ^^^ columnNeighbours k n c x

theorem thetaLanes_getElem_neighbours (a : Lanes) (p : Nat) (h : p < 25) :
    (thetaLanes a)[p] = a[p] ^^^ columnNeighbours 1 1 (columnParity a) ⟨p % 5, by omega⟩ := by
  have below : (⟨p % 5, by omega⟩ : Fin 5) - 1 = ⟨(p % 5 + 4) % 5, by omega⟩ := by
    ext; simp only [Fin.sub_def, Fin.val_one]; omega
  rw [thetaLanes_getElem, rotl64_eq_rotateLeft _ (by omega), columnNeighbours, below]
  rfl

/-- Five equal XORs into a column change its parity by one of them. -/
theorem xor_into_each_of_five (d x0 x1 x2 x3 x4 : Lane) :
    (x0 ^^^ d) ^^^ (x1 ^^^ d) ^^^ (x2 ^^^ d) ^^^ (x3 ^^^ d) ^^^ (x4 ^^^ d) =
      (x0 ^^^ x1 ^^^ x2 ^^^ x3 ^^^ x4) ^^^ d := by
  ac_nf
  simp only [xor_cancel_left]

theorem columnParity_thetaLanes (a : Lanes) : columnParity (thetaLanes a) = columnMix 1 1 (columnParity a) := by
  funext x
  simp only [columnParity, thetaLanes_getElem_neighbours, columnMix, Nat.add_mod x.val, Nat.mod_eq_of_lt x.isLt,
    Nat.reduceMod, Nat.add_zero, Fin.eta]
  exact xor_into_each_of_five _ _ _ _ _ _

theorem columnMix_columnMix (k : Fin 5) (n : Nat) (c : Fin 5 → Lane) :
    columnMix k n (columnMix k n c) = columnMix (k + k) (n + n) c := by
  funext x
  simp only [columnMix, columnNeighbours, rotateLeft_xor, rotateLeft_rotateLeft, sub_add_cancel,
    add_sub_cancel_right, sub_sub, add_assoc]
  ac_nf
  simp only [xor_cancel_left]

/-- Where the rotation is a whole turn, the distances 4 and 3 undo each other. -/
theorem columnMix_full_turns (c : Fin 5 → Lane) : columnMix 3 (64 * 2) (columnMix 4 (64 * 1) c) = c := by
  funext x
  have column : x - 3 = x + 2 ∧ x + 2 - 4 = x + 3 ∧ x + 2 + 4 = x + 1 ∧ x + 3 - 4 = x + 4 ∧ x + 3 + 4 = x + 2 ∧
      x - 4 = x + 1 := by
    revert x; decide
  obtain ⟨h0, h1, h2, h3, h4, h5⟩ := column
  simp only [columnMix, columnNeighbours, rotateLeft_full_turns, h0, h1, h2, h3, h4, h5]
  ac_nf
  simp only [BitVec.xor_self, BitVec.xor_zero]

theorem columnMix_injective_of_squared {k : Fin 5} {n : Nat}
    (h : Function.Injective (columnMix (k + k) (n + n))) : Function.Injective (columnMix k n) :=
  fun c d e => h (by rw [← columnMix_columnMix, e, columnMix_columnMix])

theorem columnMix_injective : Function.Injective (columnMix 1 1) := by
  have h : Function.Injective (columnMix 4 64) := Function.LeftInverse.injective columnMix_full_turns
  iterate 6 apply columnMix_injective_of_squared
  exact h

/-- THETA is injective: its result fixes the parities, so what was XORed into each lane. -/
theorem thetaLanes_injective : Function.Injective thetaLanes := by
  intro a b h
  have parities : columnParity a = columnParity b :=
    columnMix_injective (by rw [← columnParity_thetaLanes, h, columnParity_thetaLanes])
  ext1 p hp
  have lane : (thetaLanes a)[p] = (thetaLanes b)[p] := by rw [h]
  rw [thetaLanes_getElem_neighbours, thetaLanes_getElem_neighbours, parities] at lane
  exact (BitVec.xor_left_inj _).1 lane

/-! ### RHOPI -/

/-- The lanes RHOPI's accumulator visits, in order (R64, R65): it starts at lane 1, and move `i` goes from
`rhoPiChain i` to `rhoPiChain (i + 1)`. -/
def rhoPiChain : Fin 25 → Fin 25 := Fin.cons 1 fun i : Fin 24 => dstTable[i]

/-- What the first `n` moves of RHOPI on `a` have done: the accumulator holds the old value of the `n`-th lane of
the chain, lanes that were not reached are kept, and each lane reached holds its predecessor, rotated. -/
structure RhoPiMoved (a : Lanes) (n : Fin 25) (c : Lanes × Lane) : Prop where
  carried : c.2 = a[rhoPiChain n]
  kept : ∀ p : Fin 25, (∀ i : Fin 24, i.castSucc < n → dstTable[i] ≠ p) → c.1[p] = a[p]
  moved : ∀ i : Fin 24, i.castSucc < n → c.1[dstTable[i]] = rotl64 a[rhoPiChain i.castSucc] rotTable[i]

theorem dstTable_injective : ∀ i j : Fin 24, dstTable[i] = dstTable[j] → i = j := by decide

theorem rhoPiMoved_start (a : Lanes) : RhoPiMoved a 0 (a, a[1]) :=
  ⟨rfl, fun _ _ => rfl, fun _ h => absurd h (Fin.not_lt_zero _)⟩

theorem rhoPiMove_moved {a : Lanes} {i : Fin 24} {c : Lanes × Lane} (h : RhoPiMoved a i.castSucc c) :
    RhoPiMoved a i.succ (rhoPiMove c i) := by
  have later {j : Fin 24} (hj : j < i) : dstTable[j] ≠ dstTable[i] := fun e => hj.ne (dstTable_injective _ _ e)
  constructor
  · exact h.kept _ fun j hj => later hj
  · intro p hp
    have hi : dstTable[i] ≠ p := hp i i.castSucc_lt_succ
    have e : (rhoPiMove c i).1[p] = c.1[p] := Vector.getElem_set_ne (dstTable[i]).isLt p.isLt (fun e => hi (Fin.ext e))
    exact e.trans (h.kept p fun j hj => hp j (hj.trans i.castSucc_lt_succ))
  · intro j hj
    obtain hlt | rfl : j < i ∨ j = i := lt_or_eq_of_le (Fin.castSucc_lt_succ_iff.1 hj)
    · have e : (rhoPiMove c i).1[dstTable[j]] = c.1[dstTable[j]] :=
        Vector.getElem_set_ne (dstTable[i]).isLt (dstTable[j]).isLt (fun e => later hlt (Fin.ext e.symm))
      exact e.trans (h.moved j hlt)
    · rw [← h.carried]
      exact Vector.getElem_set_self _

theorem rhoPiMoves_moved (a : Lanes) (n : Fin 25) :
    RhoPiMoved a n (((List.finRange 24).take n).foldl rhoPiMove (a, a[1])) := by
  induction n using Fin.induction with
  | zero => exact rhoPiMoved_start a
  | succ i ih =>
    rw [Fin.val_succ, List.take_succ_eq_append_getElem (by simp), List.foldl_concat, List.getElem_finRange]
    exact rhoPiMove_moved ih

theorem rhoPiLanes_moved (a : Lanes) : ∃ acc, RhoPiMoved a (Fin.last 24) (rhoPiLanes a, acc) := by
  have h := rhoPiMoves_moved a (Fin.last 24)
  rw [Fin.val_last, List.take_of_length_le (by simp)] at h
  rw [rhoPiLanes]
  exact ⟨_, h⟩

/-- R64, R67: lane 0 after RHOPI. -/
@[simp] theorem rhoPiLanes_getElem_zero (a : Lanes) : (rhoPiLanes a)[0] = a[0] := by
  obtain ⟨_, h⟩ := rhoPiLanes_moved a
  exact h.kept 0 fun i _ => by revert i; decide

/-- R64, R67: the lane that move `i` of RHOPI writes. -/
theorem rhoPiLanes_getElem_dst (a : Lanes) (i : Fin 24) :
    (rhoPiLanes a)[dstTable[i]] = rotl64 a[rhoPiChain i.castSucc] rotTable[i] := by
  obtain ⟨_, h⟩ := rhoPiLanes_moved a
  exact h.moved i i.castSucc_lt_last

/-- The chain visits every lane but lane 0. -/
theorem rhoPiChain_covers : ∀ p : Fin 25, p = 0 ∨ ∃ i : Fin 24, rhoPiChain i.castSucc = p := by decide

theorem rhoPiLanes_injective : Function.Injective rhoPiLanes := by
  intro a b h
  have lane (p : Fin 25) : a[p] = b[p] := by
    obtain rfl | ⟨i, rfl⟩ := rhoPiChain_covers p
    · have zero : (rhoPiLanes a)[0] = (rhoPiLanes b)[0] := by rw [h]
      simpa using zero
    · apply rotl64_injective (rotTable_range i).2
      simp only [← rhoPiLanes_getElem_dst, h]
  ext1 p hp
  exact lane ⟨p, hp⟩

/-! ### CHI -/

/-- The first lane of the inverse of CHI on a row of five lanes, from the row turned so that it comes first. -/
def chiRowInverse (y0 y1 y2 y3 y4 : Lane) : Lane := y0 ^^^ (~~~y1 &&& (y2 ^^^ (~~~y3 &&& y4)))

theorem chiRowInverse_chi (x0 x1 x2 x3 x4 : Lane) :
    chiRowInverse (x0 ^^^ (~~~x1 &&& x2)) (x1 ^^^ (~~~x2 &&& x3)) (x2 ^^^ (~~~x3 &&& x4)) (x3 ^^^ (~~~x4 &&& x0))
      (x4 ^^^ (~~~x0 &&& x1)) = x0 := by
  apply BitVec.eq_of_getElem_eq
  intro k hk
  simp only [chiRowInverse, BitVec.getElem_xor, BitVec.getElem_and, BitVec.getElem_not]
  generalize x0[k] = b0, x1[k] = b1, x2[k] = b2, x3[k] = b3, x4[k] = b4
  revert b0 b1 b2 b3 b4
  decide

/-- R68 by rows: CHI at the lane in column `x` of row `y`. -/
theorem chiLanes_getElem_row (a : Lanes) {y x : Nat} (hy : y < 5) (hx : x < 5) :
    (chiLanes a)[5 * y + x] = a[5 * y + x] ^^^ (~~~a[5 * y + (x + 1) % 5] &&& a[5 * y + (x + 2) % 5]) := by
  have row : (5 * y + x) / 5 = y := by omega
  have column : (5 * y + x) % 5 = x := by omega
  simp only [chiLanes_getElem, row, column]

/-- A lane before CHI, from the lanes of its row after CHI. -/
theorem chiRowInverse_chiLanes (a : Lanes) {y x : Nat} (hy : y < 5) (hx : x < 5) :
    chiRowInverse (chiLanes a)[5 * y + x] (chiLanes a)[5 * y + (x + 1) % 5] (chiLanes a)[5 * y + (x + 2) % 5]
      (chiLanes a)[5 * y + (x + 3) % 5] (chiLanes a)[5 * y + (x + 4) % 5] = a[5 * y + x] := by
  have turn5 : (x + 5) % 5 = x := by omega
  have turn6 : (x + 6) % 5 = (x + 1) % 5 := by omega
  simp only [chiLanes_getElem_row a hy hx, chiLanes_getElem_row a hy (Nat.mod_lt _ (by decide : 0 < 5)),
    Nat.mod_add_mod, Nat.add_assoc, Nat.reduceAdd, turn5, turn6]
  exact chiRowInverse_chi _ _ _ _ _

theorem chiLanes_injective : Function.Injective chiLanes := by
  intro a b h
  ext1 p hp
  obtain ⟨y, x, hy, hx, rfl⟩ : ∃ y x, y < 5 ∧ x < 5 ∧ p = 5 * y + x := ⟨p / 5, p % 5, by omega⟩
  rw [← chiRowInverse_chiLanes a hy hx, ← chiRowInverse_chiLanes b hy hx, h]

/-! ### IOTA, the round and KECCAK_F -/

/-- R69: IOTA twice restores the lanes. -/
theorem iotaLanes_iotaLanes (r : Fin Config.roundCount) (a : Lanes) : iotaLanes r (iotaLanes r a) = a := by
  simp [iotaLanes]

theorem iotaLanes_injective (r : Fin Config.roundCount) : Function.Injective (iotaLanes r) :=
  Function.LeftInverse.injective (iotaLanes_iotaLanes r)

theorem roundLanes_injective (r : Fin Config.roundCount) : Function.Injective (roundLanes r) :=
  (iotaLanes_injective r).comp (chiLanes_injective.comp (rhoPiLanes_injective.comp thetaLanes_injective))

/-- Rounds in any order and number. -/
theorem foldl_roundLanes_injective (rs : List (Fin Config.roundCount)) :
    Function.Injective fun a => rs.foldl (fun a r => roundLanes r a) a := by
  induction rs with
  | nil => exact Function.injective_id
  | cons r rs ih => exact ih.comp (roundLanes_injective r)

theorem keccakF_injective : Function.Injective keccakF := by
  intro a b h
  rw [keccakF, keccakF] at h
  exact foldl_roundLanes_injective _ h

theorem lanes_finite : Finite Lanes :=
  Finite.of_injective (fun (a : Lanes) (p : Fin 25) => a[p]) fun _ _ h =>
    Vector.ext fun p hp => congrFun h ⟨p, hp⟩

/-- Settles O34: every round is injective, and an injective function on finitely many states is bijective. -/
theorem keccakFIsAPermutation : Obligations.KeccakFIsAPermutation :=
  have := lanes_finite
  Finite.injective_iff_bijective.1 keccakF_injective

end Sys2Proof.Machine
end

section
/-! PROOFS, family 10_state. The registers: who writes them, the invariant between commands, and that control does not
depend on data (R25). -/

namespace Sys2Proof.Machine

/-! ### Inversion: one lemma over all instructions, one over a step -/

/-- The registers that an instruction leaves unless it is INIT or is refused. -/
structure SameStatus (s t : State) : Prop where
  err : t.err = s.err
  cause : t.cause = s.cause
  rate : t.rate = s.rate
  dlen : t.dlen = s.dlen
  input : t.input = s.input
  micro : t.micro = s.micro

theorem exec_iota_eq_next {r : Nat} {s t : State} :
    exec (.iota r) s = .next t ↔ ∃ h : r < Config.roundCount, t = s.setLanes (iotaLanes ⟨r, h⟩ s.lanes) := by
  by_cases h : r < Config.roundCount
  · simp only [exec_iota h, Host.Outcome.next.injEq, h, exists_true_left, eq_comm]
  · simp [exec, execIota, h]

/-- The instructions of the permutation engine write the lanes alone. -/
theorem exec_engine_lanes {i : Instr} {s t : State}
    (hi : i = .mix ∨ i = .theta ∨ i = .rhopi ∨ i = .chi ∨ ∃ r, i = .iota r) (h : exec i s = .next t) :
    ∃ a, t = s.setLanes a := by
  obtain rfl | rfl | rfl | rfl | ⟨r, rfl⟩ := hi
  case inl => exact ⟨_, (mixState_eq_next.1 h).2⟩
  case inr.inl => exact ⟨_, (Host.Outcome.next.inj h).symm⟩
  case inr.inr.inl => exact ⟨_, (Host.Outcome.next.inj h).symm⟩
  case inr.inr.inr.inl => exact ⟨_, (Host.Outcome.next.inj h).symm⟩
  case inr.inr.inr.inr => exact ⟨_, (exec_iota_eq_next.1 h).2⟩

/-- An instruction is INIT, or is refused, or is a performed FINAL, or leaves the phase too. -/
theorem exec_cases {i : Instr} {s t : State} (h : exec i s = .next t) :
    (∃ sel, i = .init sel) ∨
    (((∃ b, i = .absorb b) ∨ i = .final) ∧ s.phase ≠ .absorbing ∧ t = refuse .wrongPhase s) ∨
    (i = .final ∧ s.phase = .absorbing ∧ t.phase = .done ∧ SameStatus s t) ∨
    (i ≠ .final ∧ t.phase = s.phase ∧ SameStatus s t) := by
  cases i with
  | init sel => exact .inl ⟨sel, rfl⟩
  | absorb b =>
    obtain refused | ⟨-, -, -, rfl⟩ | ⟨-, -, -, rfl⟩ := execAbsorb_cases h
    · exact .inr (.inl ⟨.inl ⟨b, rfl⟩, refused⟩)
    · exact .inr (.inr (.inr ⟨nofun, by simp, by constructor <;> simp⟩))
    · exact .inr (.inr (.inr ⟨nofun, by simp, by constructor <;> simp⟩))
  | final =>
    obtain refused | ⟨hp, u, hu, -, -, rfl⟩ := execFinal_cases h
    · exact .inr (.inl ⟨.inr rfl, refused⟩)
    · obtain ⟨-, -, -, rfl⟩ := padState_eq_next.1 hu
      exact .inr (.inr (.inl ⟨rfl, hp, by simp, by constructor <;> simp⟩))
  | mix | theta | rhopi | chi | iota r =>
    obtain ⟨a, rfl⟩ := exec_engine_lanes (by simp) h
    exact .inr (.inr (.inr ⟨nofun, by simp, by constructor <;> simp⟩))
  | pad =>
    obtain ⟨-, -, -, rfl⟩ := padState_eq_next.1 h
    exact .inr (.inr (.inr ⟨nofun, by simp, by constructor <;> simp⟩))
  | squeeze =>
    obtain ⟨-, rfl⟩ := squeezeState_eq_next.1 h
    exact .inr (.inr (.inr ⟨nofun, by simp, by constructor <;> simp⟩))

/-- R55: no step code names INIT. -/
theorem decodeMicro_ne_init {m : MicroWord} {sel : Selector} : decodeMicro m ≠ .ok (.init sel) := by
  unfold decodeMicro noRound
  repeat' split
  all_goals simp

theorem runMicro_eq_next {m : MicroWord} {s t : State} (h : runMicro m s = .next t) :
    ∃ i, decodeMicro m = .ok i ∧ exec i s = .next t := by
  unfold runMicro at h
  split at h
  case h_1 i hi => exact ⟨i, hi, h⟩
  all_goals cases h

/-- A step that answers a next state holds the state, runs a micro-operation, resets, performs a command or refuses a
word. -/
theorem step_next_cases {s t : State} (h : step s = .next t) :
    (s.micro = none ∧ s.input = [] ∧ t = s) ∨
    (∃ m i, s.micro = some m ∧ decodeMicro m = .ok i ∧ exec i (s.setMicro none) = .next t) ∨
    (s.micro = none ∧ ∃ rest, s.input = .rst :: rest ∧ t = assertRst (s.setInput rest)) ∨
    (s.micro = none ∧ ∃ w rest i, s.input = .command w :: rest ∧ decodeCommand w = .ok i ∧
      exec i (s.setInput rest) = .next t) ∨
    (s.micro = none ∧ ∃ w rest c, s.input = .command w :: rest ∧ c ≠ .none ∧ t = refuse c (s.setInput rest)) := by
  obtain ⟨hm, hi, e⟩ | ⟨m, hm, e⟩ | ⟨hm, rest, hi, e⟩ | ⟨hm, w, rest, i, hi, hd, e⟩ | ⟨hm, w, rest, c, hi, hc, e⟩ :=
    step_cases s
  all_goals rw [e] at h
  case inl => exact .inl ⟨hm, hi, (Host.Outcome.next.inj h).symm⟩
  case inr.inl =>
    obtain ⟨i, hd, hx⟩ := runMicro_eq_next h
    exact .inr (.inl ⟨m, i, hm, hd, hx⟩)
  case inr.inr.inl => exact .inr (.inr (.inl ⟨hm, rest, hi, (Host.Outcome.next.inj h).symm⟩))
  case inr.inr.inr.inl => exact .inr (.inr (.inr (.inl ⟨hm, w, rest, i, hi, hd, h⟩)))
  case inr.inr.inr.inr =>
    have cause : c ≠ .none := by rcases hc with rfl | rfl <;> nofun
    exact .inr (.inr (.inr (.inr ⟨hm, w, rest, c, hi, cause, (Host.Outcome.next.inj h).symm⟩)))

/-! ### The invariant -/

theorem inv_setInput {s : State} (h : s.Inv) (l : List HostInput) : (s.setInput l).Inv :=
  ⟨h.bufferCanonical, h.microEmpty, h.ratesLegal, h.fillBelowRate, h.outputIsDigest, h.causeMatchesErr⟩

theorem refuse_inv {c : Cause} {s : State} (h : s.Inv) (hc : c ≠ .none) : (refuse c s).Inv where
  bufferCanonical := h.bufferCanonical
  microEmpty := h.microEmpty
  ratesLegal := h.ratesLegal
  fillBelowRate := h.fillBelowRate
  outputIsDigest := h.outputIsDigest
  causeMatchesErr := by simp [refuse_cause_ne_none hc h.causeMatchesErr]

theorem assertRst_inv (s : State) : (assertRst s).Inv where
  bufferCanonical := freeBuffer_wf s.draws
  microEmpty := rfl
  ratesLegal := by simp
  fillBelowRate := by simp
  outputIsDigest := by simp
  causeMatchesErr := by simp

theorem blockSizeOf_pos (v : Variant) : 0 < (blockSizeOf v).toNat := by
  cases v <;> decide

theorem exec_init_inv {sel : Selector} {s t : State} (h : s.Inv) (hx : exec (.init sel) s = .next t) : t.Inv := by
  obtain rfl := Host.Outcome.next.inj ((exec_init _ _).symm.trans hx)
  exact {
    bufferCanonical := h.bufferCanonical
    microEmpty := h.microEmpty
    ratesLegal := fun _ => ⟨variantOf sel, rfl, rfl⟩
    fillBelowRate := fun _ => blockSizeOf_pos _
    outputIsDigest := by simp
    causeMatchesErr := h.causeMatchesErr }

/-- After an INIT, a command that leaves the status registers owes the invariant only the buffer, `fill` and the
output. -/
theorem inv_of_sameStatus {s t : State} (h : s.Inv) (started : s.phase ≠ .idle) (same : SameStatus s t)
    (buffer : Memory.wf t.buffer) (fill : t.phase = .absorbing → t.fill.toNat < t.rate.toNat)
    (output : t.phase = .done → t.output = bytesOfLanes t.lanes t.dlen.toNat) : t.Inv where
  bufferCanonical := buffer
  microEmpty := same.micro.trans h.microEmpty
  ratesLegal := fun _ => by simpa only [same.rate, same.dlen] using h.ratesLegal started
  fillBelowRate := fill
  outputIsDigest := output
  causeMatchesErr := by simpa only [same.err, same.cause] using h.causeMatchesErr

/-- ABSORB stores inside the space; after it `fill` is below the rate, as one more byte staged or as 0. -/
theorem exec_absorb_inv {b : Byte} {s t : State} (h : s.Inv) (hx : exec (.absorb b) s = .next t) : t.Inv := by
  obtain ⟨-, rfl⟩ | ⟨hp, hf, hne, rfl⟩ | ⟨hp, hf, -, rfl⟩ := execAbsorb_cases hx
  case inl => exact refuse_inv h nofun
  all_goals
    have below := h.fillBelowRate hp
    have stored := Memory.write_wf h.bufferCanonical hf b
    refine inv_of_sameStatus h (by simp [hp]) (by constructor <;> simp) (by simpa using stored) (fun _ => ?_)
      (by simp [hp])
  · simp only [State.setFill_fill, State.setFill_rate, State.setBuffer_rate]
    bv_omega
  · simpa using Nat.zero_lt_of_lt below

/-- FINAL pads inside the block, and its SQUEEZE leaves the digest of the new lanes in the output. -/
theorem exec_final_inv {s t : State} (h : s.Inv) (hx : exec .final s = .next t) : t.Inv := by
  obtain ⟨-, rfl⟩ | ⟨hp, u, hu, hr, -, rfl⟩ := execFinal_cases hx
  case inl => exact refuse_inv h nofun
  obtain ⟨-, -, -, rfl⟩ := padState_eq_next.1 hu
  have padded := padMemory_wf h.bufferCanonical (h.fillBelowRate hp) hr
  exact inv_of_sameStatus h (by simp [hp]) (by constructor <;> simp) (by simpa using padded) (by simp) (by simp)

/-- Settles O2: the buffer is empty and the phase IDLE. -/
theorem invariantHoldsAtReset : Obligations.InvariantHoldsAtReset where
  bufferCanonical := Memory.wf_nil
  microEmpty := rfl
  ratesLegal := fun h => absurd rfl h
  fillBelowRate := nofun
  outputIsDigest := nofun
  causeMatchesErr := by decide

/-- Settles O3: each command keeps the invariant, and so do a refusal and `rst`. -/
theorem everyStepKeepsTheInvariant : Obligations.EveryStepKeepsTheInvariant := by
  intro s t h hs
  obtain ⟨-, -, rfl⟩ | ⟨m, _, hm, -, -⟩ | ⟨-, rest, -, rfl⟩ | ⟨-, w, rest, i, -, hd, hx⟩ | ⟨-, _, rest, c, -, hc, rfl⟩ :=
    step_next_cases hs
  case inl => exact h
  case inr.inl => exact absurd (h.microEmpty.symm.trans hm) nofun
  case inr.inr.inl => exact assertRst_inv _
  case inr.inr.inr.inl =>
    have hr := inv_setInput h rest
    obtain rfl | rfl | rfl := decodeCommand_cases hd
    · exact exec_init_inv hr hx
    · exact exec_absorb_inv hr hx
    · exact exec_final_inv hr hx
  case inr.inr.inr.inr => exact refuse_inv (inv_setInput h rest) hc

/-! ### Who writes `phase`, `err`, `cause`, `rate` and `dlen` -/

/-- R20: the codes of the phases, as the host reads them. -/
theorem phaseCode_iff (p : Phase) :
    (p = .idle ↔ phaseCode p = 0#2) ∧ (p = .absorbing ↔ phaseCode p = 1#2) ∧ (p = .done ↔ phaseCode p = 2#2) ∧
      phaseCode p ≠ 3#2 := by
  cases p <;> decide

/-- R22, R101: the codes of the causes. -/
theorem causeCode_iff (c : Cause) :
    (c = .none ↔ causeCode c = 0#2) ∧ (c = .illegalOpcode ↔ causeCode c = 1#2) ∧
      (c = .illegalOperand ↔ causeCode c = 2#2) ∧ (c = .wrongPhase ↔ causeCode c = 3#2) := by
  cases c <;> decide

/-- R21: the values of `err`. -/
theorem errCode_iff (e : Bool) : (e = true ↔ errCode e = 1#1) ∧ (e = false ↔ errCode e = 0#1) := by
  cases e <;> decide

/-- Settles O15, from the four things an instruction can be. -/
theorem onlyInitFinalAndRstWriteThePhase : Obligations.OnlyInitFinalAndRstWriteThePhase := by
  refine ⟨fun s => phaseCode_iff s.phase, rfl, assertRst_phase, fun i s t h => ⟨?_, ?_, ?_⟩⟩
  · rintro ⟨sel, rfl⟩
    obtain rfl := Host.Outcome.next.inj ((exec_init _ _).symm.trans h)
    rfl
  · rintro rfl hp
    obtain ⟨_, hi⟩ | ⟨-, hne, -⟩ | ⟨-, -, done, -⟩ | ⟨hne, -⟩ := exec_cases h
    · cases hi
    · exact absurd hp hne
    · exact done
    · exact absurd rfl hne
  · intro noInit noFinal
    obtain ⟨sel, hi⟩ | ⟨-, -, rfl⟩ | ⟨hi, hp, -⟩ | ⟨-, kept, -⟩ := exec_cases h
    · exact absurd hi (noInit sel)
    · simp
    · exact absurd ⟨hi, hp⟩ noFinal
    · exact kept

theorem refuse_keeps_cause {c : Cause} {s : State} (h : s.err = true) : (refuse c s).cause = s.cause := by
  simp [refuse_eq, h]

/-- R106: no instruction clears `err` or overwrites the first cause. -/
theorem exec_keeps_first_cause {i : Instr} {s t : State} (h : exec i s = .next t) (he : s.err = true) :
    t.err = true ∧ t.cause = s.cause := by
  obtain ⟨sel, rfl⟩ | ⟨-, -, rfl⟩ | ⟨-, -, -, same⟩ | ⟨-, -, same⟩ := exec_cases h
  · obtain rfl := Host.Outcome.next.inj ((exec_init _ _).symm.trans h)
    exact ⟨he, rfl⟩
  · exact ⟨rfl, refuse_keeps_cause he⟩
  · exact ⟨same.err.trans he, same.cause⟩
  · exact ⟨same.err.trans he, same.cause⟩

/-- Settles O16: neither an instruction nor a refusal changes the flags once `err` is 1. -/
theorem errIsStickyAndKeepsTheFirstCause : Obligations.ErrIsStickyAndKeepsTheFirstCause := by
  refine ⟨fun s t h he noRst => ?_, fun s => ?_⟩
  · obtain ⟨-, -, rfl⟩ | ⟨_, _, -, -, hx⟩ | ⟨hm, rest, hi, -⟩ | ⟨-, _, _, _, -, -, hx⟩ | ⟨-, _, _, _, -, -, rfl⟩ :=
      step_next_cases h
    · exact ⟨he, rfl⟩
    · have kept := exec_keeps_first_cause hx he
      exact kept
    · exact absurd (by simp [hi]) (noRst hm)
    · have kept := exec_keeps_first_cause hx he
      exact kept
    · exact ⟨rfl, refuse_keeps_cause he⟩
  · obtain ⟨err1, err0⟩ := errCode_iff s.err
    exact ⟨err1, err0, causeCode_iff s.cause⟩

theorem exec_keeps_sizes {i : Instr} {s t : State} (h : exec i s = .next t) :
    (∃ sel, i = .init sel) ∨ (t.rate = s.rate ∧ t.dlen = s.dlen) := by
  obtain init | ⟨-, -, rfl⟩ | ⟨-, -, -, same⟩ | ⟨-, -, same⟩ := exec_cases h
  · exact .inl init
  · exact .inr ⟨rfl, rfl⟩
  · exact .inr ⟨same.rate, same.dlen⟩
  · exact .inr ⟨same.rate, same.dlen⟩

/-- Settles O17: of what a step can be, only INIT and `rst` write the two sizes. -/
theorem onlyInitAndRstWriteRateAndDigestLength : Obligations.OnlyInitAndRstWriteRateAndDigestLength := by
  intro s t h
  obtain ⟨-, -, rfl⟩ | ⟨_, _, -, hd, hx⟩ | ⟨hm, rest, hi, -⟩ | ⟨hm, w, rest, _, hi, hd, hx⟩ | ⟨-, _, _, _, -, -, rfl⟩ :=
    step_next_cases h
  · exact .inl ⟨rfl, rfl⟩
  · obtain ⟨sel, rfl⟩ | kept := exec_keeps_sizes hx
    · exact absurd hd decodeMicro_ne_init
    · exact .inl kept
  · exact .inr ⟨hm, rest, .inl hi⟩
  · obtain ⟨sel, rfl⟩ | kept := exec_keeps_sizes hx
    · exact .inr ⟨hm, rest, .inr ⟨w, sel, hi, hd⟩⟩
    · exact .inl kept
  · exact .inl ⟨rfl, rfl⟩

/-! ### Control does not depend on data -/

/-- Two states that agree in all but data: the lanes, the buffer and the output. -/
structure SameControl (s t : State) : Prop extends SameStatus s t where
  fill : t.fill = s.fill
  phase : t.phase = s.phase
  draws : t.draws = s.draws

/-- Where `r` answers a next state, `r'` answers one too, and the two agree in all but data. -/
def AnswersAlike (r r' : Result) : Prop := ∀ t, r = .next t → ∃ u, r' = .next u ∧ SameControl t u

theorem answersAlike_next {s s' : State} (h : SameControl s s') : AnswersAlike (.next s) (.next s') := by
  rintro t ⟨⟩
  exact ⟨s', rfl, h⟩

theorem answersAlike_stop {r r' : Result} (h : ∀ t, r ≠ .next t) : AnswersAlike r r' :=
  fun t ht => absurd ht (h t)

theorem answersAlike_andThen {r r' : Result} {f f' : State → Result} (hr : AnswersAlike r r')
    (hf : ∀ t u, SameControl t u → AnswersAlike (f t) (f' u)) : AnswersAlike (andThen r f) (andThen r' f') := by
  intro t ht
  obtain ⟨s, hs, ht⟩ := andThen_eq_next.1 ht
  obtain ⟨s', hs', same⟩ := hr s hs
  obtain ⟨u, hu, same⟩ := hf s s' same t ht
  exact ⟨u, andThen_eq_next.2 ⟨s', hs', hu⟩, same⟩

theorem answersAlike_withinSpace {r r' : Result} (n : Nat) (h : AnswersAlike r r') :
    AnswersAlike (withinSpace n r) (withinSpace n r') := by
  intro t ht
  obtain ⟨hn, ht⟩ := withinSpace_eq_next.1 ht
  obtain ⟨u, hu, same⟩ := h t ht
  exact ⟨u, withinSpace_eq_next.2 ⟨hn, hu⟩, same⟩

section
variable {s s' : State} (h : SameControl s s')
include h

theorem sameControl_setLanes (a a' : Lanes) : SameControl (s.setLanes a) (s'.setLanes a') :=
  ⟨⟨h.err, h.cause, h.rate, h.dlen, h.input, h.micro⟩, h.fill, h.phase, h.draws⟩

theorem sameControl_setBuffer (b b' : Memory) : SameControl (s.setBuffer b) (s'.setBuffer b') :=
  ⟨⟨h.err, h.cause, h.rate, h.dlen, h.input, h.micro⟩, h.fill, h.phase, h.draws⟩

theorem sameControl_setOutput (o o' : List Byte) : SameControl (s.setOutput o) (s'.setOutput o') :=
  ⟨⟨h.err, h.cause, h.rate, h.dlen, h.input, h.micro⟩, h.fill, h.phase, h.draws⟩

theorem sameControl_setFill (v : Byte) : SameControl (s.setFill v) (s'.setFill v) :=
  ⟨⟨h.err, h.cause, h.rate, h.dlen, h.input, h.micro⟩, rfl, h.phase, h.draws⟩

theorem sameControl_setPhase (p : Phase) : SameControl (s.setPhase p) (s'.setPhase p) :=
  ⟨⟨h.err, h.cause, h.rate, h.dlen, h.input, h.micro⟩, h.fill, rfl, h.draws⟩

theorem sameControl_setRates (r d : Byte) : SameControl (s.setRates r d) (s'.setRates r d) :=
  ⟨⟨h.err, h.cause, rfl, rfl, h.input, h.micro⟩, h.fill, h.phase, h.draws⟩

theorem sameControl_setDraws (n : Nat) : SameControl (s.setDraws n) (s'.setDraws n) :=
  ⟨⟨h.err, h.cause, h.rate, h.dlen, h.input, h.micro⟩, h.fill, h.phase, rfl⟩

theorem sameControl_refuse (c : Cause) : SameControl (refuse c s) (refuse c s') := by
  rw [refuse_eq, refuse_eq, h.err, h.cause]
  exact ⟨⟨rfl, rfl, h.rate, h.dlen, h.input, h.micro⟩, h.fill, h.phase, h.draws⟩

theorem sameControl_dropFill : SameControl (dropFill s) (dropFill s') := by
  rw [dropFill, dropFill, h.draws]
  exact sameControl_setDraws (sameControl_setFill h _) _

theorem storeByte_alike (k : Nat) (b b' : Byte) : AnswersAlike (storeByte k b s) (storeByte k b' s') :=
  answersAlike_withinSpace _ (answersAlike_next (sameControl_setBuffer h _ _))

theorem mixState_alike : AnswersAlike (mixState s) (mixState s') := by
  rw [mixState, mixState, h.rate]
  exact answersAlike_withinSpace _ (answersAlike_next (sameControl_setLanes h _ _))

theorem permuteState_alike : AnswersAlike (permuteState s) (permuteState s') :=
  answersAlike_andThen (mixState_alike h) fun _ _ same => answersAlike_next (sameControl_setLanes same _ _)

theorem padState_alike : AnswersAlike (padState s) (padState s') := by
  rw [padState, padState, h.rate, h.fill]
  split
  · exact answersAlike_stop nofun
  · exact answersAlike_withinSpace _ (answersAlike_withinSpace _
      (answersAlike_next (sameControl_setFill (sameControl_setBuffer h _ _) _)))

theorem squeezeState_alike : AnswersAlike (squeezeState s) (squeezeState s') := by
  rw [squeezeState, squeezeState, h.dlen]
  exact answersAlike_withinSpace _ (answersAlike_next (sameControl_setOutput h _ _))

theorem closeFullBlock_alike : AnswersAlike (closeFullBlock s) (closeFullBlock s') := by
  rw [closeFullBlock, closeFullBlock, h.fill, h.rate]
  split
  · exact answersAlike_andThen (permuteState_alike h) fun _ _ same => answersAlike_next (sameControl_setFill same _)
  · exact answersAlike_next h

theorem whileAbsorbing_alike {r r' : Result} (hr : AnswersAlike r r') :
    AnswersAlike (whileAbsorbing s r) (whileAbsorbing s' r') := by
  rw [whileAbsorbing, whileAbsorbing, h.phase]
  cases s.phase
  case absorbing => exact hr
  case idle => exact answersAlike_next (sameControl_refuse h _)
  case done => exact answersAlike_next (sameControl_refuse h _)

theorem execInit_alike (sel : Selector) : AnswersAlike (execInit sel s) (execInit sel s') :=
  answersAlike_next (sameControl_setPhase (sameControl_setFill
    (sameControl_setLanes (sameControl_setRates h _ _) _ _) _) _)

theorem execAbsorb_alike (b b' : Byte) : AnswersAlike (execAbsorb b s) (execAbsorb b' s') := by
  refine whileAbsorbing_alike h (answersAlike_andThen ?_ fun t u same => closeFullBlock_alike ?_)
  · rw [h.fill]
    exact storeByte_alike h _ _ _
  · rw [same.fill]
    exact sameControl_setFill same _

theorem execFinal_alike : AnswersAlike (execFinal s) (execFinal s') :=
  whileAbsorbing_alike h <|
    answersAlike_andThen (padState_alike h) fun _ _ h1 =>
      answersAlike_andThen (permuteState_alike h1) fun _ _ h2 =>
        answersAlike_andThen (squeezeState_alike h2) fun _ _ h3 =>
          answersAlike_next (sameControl_setPhase (sameControl_dropFill h3) _)

theorem execIota_alike (r : Nat) : AnswersAlike (execIota r s) (execIota r s') := by
  rw [execIota, execIota]
  split
  · exact answersAlike_next (sameControl_setLanes h _ _)
  · exact answersAlike_stop nofun

/-- R25: data does not reach the control registers, instruction by instruction. -/
theorem exec_alike (i : Instr) : AnswersAlike (exec i s) (exec i s') := by
  cases i with
  | init sel => exact execInit_alike h sel
  | absorb b => exact execAbsorb_alike h b b
  | final => exact execFinal_alike h
  | mix => exact mixState_alike h
  | theta => exact answersAlike_next (sameControl_setLanes h _ _)
  | rhopi => exact answersAlike_next (sameControl_setLanes h _ _)
  | chi => exact answersAlike_next (sameControl_setLanes h _ _)
  | iota r => exact execIota_alike h r
  | pad => exact padState_alike h
  | squeeze => exact squeezeState_alike h

end

theorem sameControl_otherData (s : State) (a : Lanes) (b : Memory) :
    SameControl s ((s.setLanes a).setBuffer b) :=
  ⟨⟨rfl, rfl, rfl, rfl, rfl, rfl⟩, rfl, rfl, rfl⟩

/-- Settles O24: on states that agree in all but data an instruction answers alike. -/
theorem controlDoesNotDependOnData : Obligations.ControlDoesNotDependOnData := by
  intro i j s t lanes buffer hij h
  have start := sameControl_otherData s lanes buffer
  have alike : AnswersAlike (exec i s) (exec j ((s.setLanes lanes).setBuffer buffer)) := by
    obtain rfl | ⟨b, c, rfl, rfl⟩ := hij
    · exact exec_alike start i
    · exact execAbsorb_alike start b c
  obtain ⟨u, hu, same⟩ := alike t h
  exact ⟨u, hu, fun _ => same.fill, same.phase, same.err, same.cause, same.rate, same.dlen, same.input, same.micro,
    same.draws⟩

end Sys2Proof.Machine
end

section
/-! PROOFS, family 20_memory. The byte view and the lanes are the same bits, little-endian (R31, R32); offsets outside
the two spaces are faults (R30, log entry 8), and under the invariant no step forms one (R38). -/

namespace Sys2Proof.Machine

/-! ### Bytes and lanes -/

/-- R31: the byte view as its defining equation gives it. -/
theorem byteOfLanes_eq_extract (a : Lanes) {k : Nat} (h : k / 8 < 25) :
    byteOfLanes a k = (a[k / 8]).extractLsb' (8 * (k % 8)) 8 :=
  dif_pos h

theorem toNat_append_byte {n : Nat} (x : BitVec n) (b : Byte) : (x ++ b).toNat = 2 ^ 8 * x.toNat + b.toNat := by
  rw [BitVec.toNat_append, ← Nat.shiftLeft_add_eq_or_of_lt b.isLt, Nat.shiftLeft_eq, Nat.mul_comm]

/-- R32: eight bytes assembled with the lowest offset least significant. -/
theorem laneOfBytes_toNat (f : Nat → Byte) (i : Nat) :
    (laneOfBytes f i).toNat = ((List.range 8).map fun j => 2 ^ (8 * j) * (f (8 * i + j)).toNat).sum := by
  have offsets : List.range 8 = [0, 1, 2, 3, 4, 5, 6, 7] := rfl
  simp only [laneOfBytes, toNat_append_byte, offsets, List.map_cons, List.map_nil, List.sum_cons, List.sum_nil,
    Nat.add_zero]
  omega

/-- The eight bytes of a lane make up the lane. -/
theorem laneOfBytes_byteOfLanes (a : Lanes) (i : Fin 25) : laneOfBytes (byteOfLanes a) i.val = a[i] := by
  apply BitVec.eq_of_getLsbD_eq
  intro n hn
  have lane : (8 * i.val + n / 8) / 8 = i.val := by omega
  have bit : 8 * (n / 8 % 8) + n % 8 = n := by omega
  rw [laneOfBytes_getLsbD _ _ _ hn, byteOfLanes_getLsbD _ (by omega)]
  simp [lane, bit, show n % 8 < 8 by omega]

/-- A write to `S[k]` leaves every lane but lane `k div 8`. -/
theorem setByteOfLanes_getElem_other (a : Lanes) {k i : Nat} (v : Byte) (hi : i < 25) (hne : i ≠ k / 8) :
    (setByteOfLanes a k v)[i] = a[i] := by
  unfold setByteOfLanes
  split
  · exact Vector.getElem_set_ne _ hi hne.symm
  · rfl

/-- A write to a lane changes its eight bytes to those of the value. -/
theorem byteOfLanes_set_same (a : Lanes) {i j : Nat} (v : Lane) (hi : i < 25) (hj : j < 8) :
    byteOfLanes (a.set i v) (8 * i + j) = v.extractLsb' (8 * j) 8 := by
  have lane : (8 * i + j) / 8 = i := by omega
  have byte : (8 * i + j) % 8 = j := by omega
  rw [byteOfLanes_eq_extract _ (by omega)]
  simp [lane, byte]

/-- A write to a lane leaves the bytes of every other lane. -/
theorem byteOfLanes_set_other (a : Lanes) {i k : Nat} (v : Lane) (hi : i < 25) (hk : k / 8 ≠ i) :
    byteOfLanes (a.set i v) k = byteOfLanes a k := by
  by_cases h : k / 8 < 25
  · rw [byteOfLanes_eq_extract _ h, byteOfLanes_eq_extract _ h, Vector.getElem_set_ne _ h hk.symm]
  · rw [byteOfLanes_above _ (by omega), byteOfLanes_above _ (by omega)]

/-- Settles O39: eight bytes are assembled little-endian, and those of the byte view are the lane. -/
theorem memReadAssemblesLittleEndian : Obligations.MemReadAssemblesLittleEndian :=
  ⟨fun b i => laneOfBytes_toNat (Memory.read b) i, laneOfBytes_byteOfLanes⟩

/-- Settles O38, from the laws of reading, of writing a byte and of writing a lane. -/
theorem byteViewIsTheLanesLittleEndian : Obligations.ByteViewIsTheLanesLittleEndian := by
  refine fun a => ⟨fun k h => byteOfLanes_eq_extract a h, fun i => ?_,
    fun k v hk => ⟨?_, fun j hj => ?_, fun i hi => ?_⟩, fun i v => ⟨fun j hj => ?_, fun k hk => ?_⟩⟩
  · rw [← laneOfBytes_byteOfLanes a i, laneOfBytes_toNat]
  · exact byteOfLanes_setByteOfLanes_same a hk v
  · exact byteOfLanes_setByteOfLanes_other a v hj
  · exact setByteOfLanes_getElem_other a v i.isLt hi
  · exact byteOfLanes_set_same a v i.isLt hj
  · exact byteOfLanes_set_other a v i.isLt hk

/-! ### Offsets outside the spaces -/

@[simp] theorem andThen_fault (e : Fault) (f : State → Result) : andThen (.fault e) f = .fault e := rfl

theorem withinSpace_of_gt {n : Nat} (h : 200 < n) (r : Result) : withinSpace n r = .fault .offsetOutsideSpace :=
  if_neg (Nat.not_le.2 h)

theorem whileAbsorbing_of_absorbing {s : State} (hp : s.phase = .absorbing) (r : Result) : whileAbsorbing s r = r := by
  rw [whileAbsorbing, hp]

theorem mixState_fault {s : State} (h : 200 < s.rate.toNat) : mixState s = .fault .offsetOutsideSpace :=
  withinSpace_of_gt h _

theorem squeezeState_fault {s : State} (h : 200 < s.dlen.toNat) : squeezeState s = .fault .offsetOutsideSpace :=
  withinSpace_of_gt h _

/-- PAD stops where its first offset, its last one, or `rate - 1` does not exist. -/
theorem padState_fault {s : State} (h : 200 ≤ s.fill.toNat ∨ s.rate = 0#8 ∨ 200 < s.rate.toNat) :
    padState s = .fault .offsetOutsideSpace := by
  unfold padState
  split
  · rfl
  · by_cases hf : 200 ≤ s.fill.toNat
    · exact withinSpace_of_gt (by omega) _
    · have hr : 200 < s.rate.toNat := by tauto
      rw [withinSpace_of_le (by omega), withinSpace_of_gt hr]

theorem exec_absorb_fault (b : Byte) {s : State} (hp : s.phase = .absorbing) (hf : 200 ≤ s.fill.toNat) :
    exec (.absorb b) s = .fault .offsetOutsideSpace := by
  rw [exec, execAbsorb, whileAbsorbing_of_absorbing hp, storeByte, withinSpace_of_gt (by omega), andThen_fault]

/-- FINAL stops with its PAD, or else with its SQUEEZE. -/
theorem exec_final_fault {s : State} (hp : s.phase = .absorbing)
    (h : 200 ≤ s.fill.toNat ∨ s.rate = 0#8 ∨ 200 < s.rate.toNat ∨ 200 < s.dlen.toNat) :
    exec .final s = .fault .offsetOutsideSpace := by
  rw [exec, execFinal, whileAbsorbing_of_absorbing hp]
  by_cases pad : 200 ≤ s.fill.toNat ∨ s.rate = 0#8 ∨ 200 < s.rate.toNat
  · rw [padState_fault pad, andThen_fault]
  · have hd : 200 < s.dlen.toNat := by tauto
    simp only [not_or, Nat.not_le, Nat.not_lt] at pad
    obtain ⟨hf, hr0, hr⟩ := pad
    rw [padState_eq_next.2 ⟨hr0, hf, hr, rfl⟩, andThen_next, permuteState_eq_next.2 ⟨by simpa using hr, rfl⟩,
      andThen_next, squeezeState_fault (by simpa using hd), andThen_fault]

/-- Settles O42, operation by operation. -/
theorem offsetsOutsideTheSpacesFault : Obligations.OffsetsOutsideTheSpacesFault := fun _ =>
  ⟨fun hr => ⟨mixState_fault hr, padState_fault (.inr (.inr hr))⟩, fun hf => padState_fault (.inl hf),
    fun h0 => padState_fault (.inr (.inl h0)), squeezeState_fault, fun hp hf b => exec_absorb_fault b hp hf,
    exec_final_fault⟩

/-! ### Progress under the invariant -/

/-- R15, R16: no variant's block or digest leaves the 200-byte space. -/
theorem variant_sizes_le (v : Variant) : (blockSizeOf v).toNat ≤ 200 ∧ (digestLengthOf v).toNat ≤ 200 := by
  cases v <;> decide

theorem inv_sizes_le {s : State} (h : s.Inv) (started : s.phase ≠ .idle) :
    s.rate.toNat ≤ 200 ∧ s.dlen.toNat ≤ 200 := by
  obtain ⟨v, hr, hd⟩ := h.ratesLegal started
  rw [hr, hd]
  exact variant_sizes_le v

/-- ABSORB is refused, or stores below the rate and then permutes a full block or leaves the block open. -/
theorem exec_absorb_progress (b : Byte) {s : State} (h : s.Inv) : ∃ t, exec (.absorb b) s = .next t := by
  by_cases hp : s.phase = .absorbing
  · obtain ⟨hr, -⟩ := inv_sizes_le h (by simp [hp])
    rw [exec_absorb b hp (Nat.lt_of_lt_of_le (h.fillBelowRate hp) hr)]
    by_cases full : s.fill + 1 = s.rate
    · exact ⟨_, closeFullBlock_of_eq full hr⟩
    · exact ⟨_, closeFullBlock_of_ne full⟩
  · exact ⟨_, exec_wrongPhase (.inl ⟨b, rfl⟩) hp⟩

/-- FINAL is refused, or has its offsets in range. -/
theorem exec_final_progress {s : State} (h : s.Inv) : ∃ t, exec .final s = .next t := by
  by_cases hp : s.phase = .absorbing
  · obtain ⟨hr, hd⟩ := inv_sizes_le h (by simp [hp])
    exact ⟨_, exec_final hp (h.fillBelowRate hp) hr hd⟩
  · exact ⟨_, exec_wrongPhase (.inr rfl) hp⟩

/-- Settles O4: the slot is empty, and each of the three commands has a next state. -/
theorem noStepStopsUnderTheInvariant : Obligations.NoStepStopsUnderTheInvariant := by
  intro s h
  obtain ⟨-, -, e⟩ | ⟨m, hm, -⟩ | ⟨-, rest, -, e⟩ | ⟨-, w, rest, i, -, hd, e⟩ | ⟨-, w, rest, c, -, -, e⟩ := step_cases s
  case inl => exact ⟨_, e⟩
  case inr.inl => exact absurd (h.microEmpty.symm.trans hm) nofun
  case inr.inr.inl => exact ⟨_, e⟩
  case inr.inr.inr.inl =>
    have hr := inv_setInput h rest
    rw [e]
    obtain rfl | rfl | rfl := decodeCommand_cases hd
    · exact ⟨_, exec_init _ _⟩
    · exact exec_absorb_progress _ hr
    · exact exec_final_progress hr
  case inr.inr.inr.inr => exact ⟨_, e⟩

end Sys2Proof.Machine
end

section
/-! PROOFS, family 30_encoding. The mask and match tests of R47 are tests of a word's fields; the decoder and the
encoder are inverse to each other; a step runs what is decoded (R45, R55); the digest port (R57). -/

namespace Sys2Proof

/-! ### Command words by their fields -/

/-- A word is its three fields `op`, `arg[11:8]` and `arg[7:0]`. -/
theorem word_eq_iff_fields {v w : Word} :
    v = w ↔ opField v = opField w ∧ reservedField v = reservedField w ∧ byteField v = byteField w := by
  refine ⟨?_, fun ⟨op, reserved, byte⟩ => word_eq_of_fields op (argField_eq_of_parts reserved byte)⟩
  rintro rfl
  exact ⟨rfl, rfl, rfl⟩

/-- A mask and match test is one test in each field. -/
theorem masked_eq_iff_fields {w mask v : Word} :
    w &&& mask = v ↔ opField w &&& opField mask = opField v ∧
      reservedField w &&& reservedField mask = reservedField v ∧ byteField w &&& byteField mask = byteField v := by
  rw [word_eq_iff_fields]
  simp only [opField, reservedField, byteField, BitVec.extractLsb'_and]

theorem and_nibbleMask (x : BitVec 4) : x &&& 0xF#4 = x := BitVec.and_allOnes

theorem init_mask_iff {w : Word} : w &&& 0xF000#16 = 0x1000#16 ↔ opField w = 0x1#4 := by
  rw [masked_eq_iff_fields]
  change opField w &&& 0xF#4 = 0x1#4 ∧ reservedField w &&& 0#4 = 0#4 ∧ byteField w &&& 0#8 = 0#8 ↔ _
  simp [and_nibbleMask]

theorem absorb_mask_iff {w : Word} : w &&& 0xFF00#16 = 0x2000#16 ↔ opField w = 0x2#4 ∧ reservedField w = 0#4 := by
  rw [masked_eq_iff_fields]
  change opField w &&& 0xF#4 = 0x2#4 ∧ reservedField w &&& 0xF#4 = 0#4 ∧ byteField w &&& 0#8 = 0#8 ↔ _
  simp [and_nibbleMask]

theorem final_mask_iff {w : Word} : w &&& 0xFFFF#16 = 0x3000#16 ↔ opField w = 0x3#4 ∧ argField w = 0#12 := by
  have ones : w &&& 0xFFFF#16 = w := BitVec.and_allOnes
  rw [ones]
  refine ⟨?_, fun ⟨op, arg⟩ => word_eq_of_fields op arg⟩
  rintro rfl
  exact ⟨rfl, rfl⟩

/-! ### What a command word decodes to -/

theorem decodeCommand_of_op_init {w : Word} (op : opField w = 0x1#4) : decodeCommand w = .ok (.init (argField w)) :=
  if_pos op

theorem decodeCommand_of_op_absorb {w : Word} (op : opField w = 0x2#4) (reserved : reservedField w = 0#4) :
    decodeCommand w = .ok (.absorb (byteField w)) := by
  simp [decodeCommand, op, reserved]

/-- R47, R51, R52: the four classes of command words by their fields, and what each decodes to. -/
theorem decodeCommand_fields (w : Word) :
    (opField w = 0x1#4 ∧ decodeCommand w = .ok (.init (argField w))) ∨
    (opField w = 0x2#4 ∧ reservedField w = 0#4 ∧ decodeCommand w = .ok (.absorb (byteField w))) ∨
    (opField w = 0x3#4 ∧ argField w = 0#12 ∧ decodeCommand w = .ok .final) ∨
    (opField w ≠ 0x1#4 ∧ ¬ (opField w = 0x2#4 ∧ reservedField w = 0#4) ∧
      ¬ (opField w = 0x3#4 ∧ argField w = 0#12) ∧ ∃ e, decodeCommand w = .error e) := by
  by_cases init : opField w = 0x1#4
  · exact .inl ⟨init, decodeCommand_of_op_init init⟩
  by_cases absorb : opField w = 0x2#4 ∧ reservedField w = 0#4
  · obtain ⟨op, reserved⟩ := absorb
    exact .inr (.inl ⟨op, reserved, decodeCommand_of_op_absorb op reserved⟩)
  by_cases final : opField w = 0x3#4 ∧ argField w = 0#12
  · obtain ⟨op, arg⟩ := final
    exact .inr (.inr (.inl ⟨op, arg, by simp [decodeCommand, op, arg]⟩))
  · refine .inr (.inr (.inr ⟨init, absorb, final, ?_⟩))
    simp only [not_and] at absorb final
    unfold decodeCommand
    split_ifs with op2 reserved op3 arg
    · exact absurd reserved (absorb op2)
    · exact ⟨_, rfl⟩
    · exact absurd arg (final op3)
    · exact ⟨_, rfl⟩
    · exact ⟨_, rfl⟩

/-- Settles O9: the three tests by fields, in each of the four classes of words. -/
theorem commandsAreTheMaskAndMatchSets : Obligations.CommandsAreTheMaskAndMatchSets := by
  intro w
  change (∀ sel, _ ↔ _ ∧ argField w = sel) ∧ (∀ b, _ ↔ _ ∧ byteField w = b) ∧ _
  simp only [init_mask_iff, absorb_mask_iff, final_mask_iff, ne_eq]
  obtain ⟨op, decoded⟩ | ⟨op, reserved, decoded⟩ | ⟨op, arg, decoded⟩ | ⟨notInit, notAbsorb, notFinal, e, decoded⟩ :=
    decodeCommand_fields w
  · simp [decoded, op]
  · simp [decoded, op, reserved]
  · simp [decoded, op, arg]
  · simp [decoded, notInit, notAbsorb, notFinal]

/-- Settles O8: the written words run through the decoder. -/
theorem writtenCodesDecode : Obligations.WrittenCodesDecode := by
  unfold Obligations.WrittenCodesDecode
  decide

/-! ### Step codes -/

theorem stepCode_cases : ∀ c : BitVec 3,
    c = 0 ∨ c = 1 ∨ c = 2 ∨ c = 3 ∨ c = 4 ∨ c = 5 ∨ c = 6 ∨ c = 7 := by decide

/-- R55: code 7 is unused, code 4 takes a round index, and each other code is that of an operation without one. -/
theorem decodeMicro_cases (m : MicroWord) :
    (m.code = 7#3 ∧ decodeMicro m = .error .unusedCode) ∨
    (m.code = 4#3 ∧ decodeMicro m = if m.round < 24 then .ok (.iota m.round) else .error .roundOutOfRange) ∨
    (m.code ≠ 4#3 ∧ m.code ≠ 7#3 ∧ ∃ i : Instr, i.wellFormed = true ∧ encode i = .micro ⟨m.code, 0⟩ ∧
      decodeMicro m = noRound m i) := by
  obtain ⟨code, round⟩ := m
  obtain rfl | rfl | rfl | rfl | rfl | rfl | rfl | rfl := stepCode_cases code
  · exact .inr (.inr ⟨by simp, by simp, .mix, rfl, rfl, rfl⟩)
  · exact .inr (.inr ⟨by simp, by simp, .theta, rfl, rfl, rfl⟩)
  · exact .inr (.inr ⟨by simp, by simp, .rhopi, rfl, rfl, rfl⟩)
  · exact .inr (.inr ⟨by simp, by simp, .chi, rfl, rfl, rfl⟩)
  · exact .inr (.inl ⟨rfl, rfl⟩)
  · exact .inr (.inr ⟨by simp, by simp, .pad, rfl, rfl, rfl⟩)
  · exact .inr (.inr ⟨by simp, by simp, .squeeze, rfl, rfl, rfl⟩)
  · exact .inl ⟨rfl, rfl⟩

theorem noRound_eq_ok {m : MicroWord} {i j : Instr} : noRound m i = .ok j ↔ m.round = 0 ∧ i = j := by
  unfold noRound
  split <;> simp_all

/-! ### Decoding and encoding -/

theorem toOption_eq_some_iff {ε α : Type} {x : Except ε α} {a : α} : x.toOption = some a ↔ x = .ok a := by
  cases x <;> simp [Except.toOption]

theorem decode_command {w : Word} {i : Instr} : decode (.command w) = some i ↔ decodeCommand w = .ok i :=
  toOption_eq_some_iff

theorem decode_micro {m : MicroWord} {i : Instr} : decode (.micro m) = some i ↔ decodeMicro m = .ok i :=
  toOption_eq_some_iff

theorem decode_encode {i : Instr} (h : i.wellFormed = true) : decode (encode i) = some i := by
  cases i with
  | init sel => exact decode_command.2 (by rw [decodeCommand_of_op_init (opField_init sel), argField_init])
  | absorb b =>
    exact decode_command.2 (by
      rw [decodeCommand_of_op_absorb (opField_absorb b) (reservedField_absorb b), byteField_absorb])
  | iota r => exact decode_micro.2 (if_pos (of_decide_eq_true h))
  | final | mix | theta | rhopi | chi | pad | squeeze => rfl

theorem encode_of_decodeCommand {w : Word} {i : Instr} (h : decodeCommand w = .ok i) :
    i.wellFormed = true ∧ encode i = .command w := by
  obtain ⟨op, decoded⟩ | ⟨op, reserved, decoded⟩ | ⟨op, arg, decoded⟩ | ⟨-, -, -, e, decoded⟩ := decodeCommand_fields w
  all_goals rw [decoded] at h
  · obtain rfl := Except.ok.inj h
    exact ⟨rfl, congrArg _ (word_eq_of_fields (by rw [opField_init, op]) (argField_init _))⟩
  · obtain rfl := Except.ok.inj h
    exact ⟨rfl, congrArg _ (word_eq_iff_fields.2 ⟨by rw [opField_absorb, op], by rw [reservedField_absorb, reserved],
      byteField_absorb _⟩)⟩
  · obtain rfl := Except.ok.inj h
    exact ⟨rfl, congrArg _ (word_eq_of_fields (v := 0x3000#16) op.symm arg.symm)⟩
  · cases h

theorem encode_of_decodeMicro {m : MicroWord} {i : Instr} (h : decodeMicro m = .ok i) :
    i.wellFormed = true ∧ encode i = .micro m := by
  obtain ⟨code, round⟩ := m
  obtain ⟨-, decoded⟩ | ⟨rfl, decoded⟩ | ⟨-, -, j, wellFormed, encoded, decoded⟩ := decodeMicro_cases ⟨code, round⟩
  all_goals rw [decoded] at h
  · cases h
  · split at h
    · obtain rfl := Except.ok.inj h
      exact ⟨decide_eq_true ‹_›, rfl⟩
    · cases h
  · obtain ⟨rfl, rfl⟩ := noRound_eq_ok.1 h
    exact ⟨wellFormed, encoded⟩

/-- Settles O10: the encoder puts each operand into the fields the decoder reads, and those fields are the whole
word. -/
theorem decodeAndEncodeAgree : Obligations.DecodeAndEncodeAgree := by
  refine ⟨fun i => decode_encode, fun e i h => ?_⟩
  cases e with
  | command w => exact encode_of_decodeCommand (decode_command.1 h)
  | micro m => exact encode_of_decodeMicro (decode_micro.1 h)

end Sys2Proof

namespace Sys2Proof.Machine

/-! ### A step runs what is decoded -/

theorem step_micro {s : State} {m : MicroWord} (hm : s.micro = some m) : step s = runMicro m (s.setMicro none) := by
  rw [step, hm]

theorem acceptCommand_of_ok {w : Word} {i : Instr} (h : decodeCommand w = .ok i) (s : State) :
    acceptCommand w s = exec i s := by
  rw [acceptCommand, h]

theorem runMicro_of_ok {m : MicroWord} {i : Instr} (h : decodeMicro m = .ok i) (s : State) :
    runMicro m s = exec i s := by
  rw [runMicro, h]

/-- Settles O5, from what a step takes and what is done with a decoded operation. -/
theorem stepRunsTheDecodedOperation : Obligations.StepRunsTheDecodedOperation :=
  ⟨fun _ _ _ _ hm hi hd => (step_command hm hi).trans (acceptCommand_of_ok hd _),
    fun _ _ _ hm hd => (step_micro hm).trans (runMicro_of_ok hd _)⟩

/-- An operation placed where a step takes its next one is what the step runs. -/
theorem step_placeEncoded {e : Encoded} {i : Instr} (h : decode e = some i) (s : State) :
    step (placeEncoded e s) = exec i (s.setMicro none) := by
  obtain ⟨runsCommand, runsMicro⟩ := stepRunsTheDecodedOperation
  cases e with
  | command w => exact runsCommand _ w s.input i rfl rfl (decode_command.1 h)
  | micro m => exact runsMicro _ m i rfl (decode_micro.1 h)

/-- Settles O6: the table word is placed as the encoding it stands for. -/
theorem stepRunsThePlacedTableWord : Obligations.StepRunsThePlacedTableWord := by
  intro s nbits w i h
  obtain ⟨e, he, hd⟩ := Option.bind_eq_some_iff.1 h
  rw [State.withFetchWord, he]
  exact step_placeEncoded hd s

/-- Settles O12, by the three kinds of step codes. -/
theorem stepCodesWithoutMeaningAreRefused : Obligations.StepCodesWithoutMeaningAreRefused := by
  intro s m hm
  rw [step_micro hm, runMicro]
  obtain ⟨code, decoded⟩ | ⟨code, decoded⟩ | ⟨ne4, ne7, i, -, -, decoded⟩ := decodeMicro_cases m
  · simp [decoded, code]
  · rw [decoded]
    refine ⟨fun h => absurd (code.symm.trans h) (by decide), fun _ high => ?_, fun h => absurd code h⟩
    rw [if_neg (Nat.not_lt.2 high)]
  · refine ⟨fun h => absurd h ne7, fun h => absurd h ne4, fun _ _ round => ?_⟩
    rw [decoded, noRound, if_neg round]

/-! ### The sequencer's slot stays empty -/

theorem exec_keeps_micro {i : Instr} {s t : State} (h : exec i s = .next t) : t.micro = s.micro := by
  obtain ⟨sel, rfl⟩ | ⟨-, -, rfl⟩ | ⟨-, -, -, same⟩ | ⟨-, -, same⟩ := exec_cases h
  · obtain rfl := Host.Outcome.next.inj ((exec_init _ _).symm.trans h)
    rfl
  · exact refuse_micro _ _
  · exact same.micro
  · exact same.micro

/-- Settles O11: a command word decodes to one of the three commands, and no instruction writes the slot that a step
finds empty or empties. -/
theorem noCommandWordIssuesAMicroOperation : Obligations.NoCommandWordIssuesAMicroOperation := by
  refine ⟨fun w i hd => ?_, fun s t h => ?_⟩
  · obtain rfl | rfl | rfl := decodeCommand_cases hd <;> simp
  · obtain ⟨hm, -, rfl⟩ | ⟨_, _, -, -, hx⟩ | ⟨-, rest, -, rfl⟩ | ⟨hm, _, _, _, -, -, hx⟩ | ⟨hm, _, _, _, -, -, rfl⟩ :=
      step_next_cases h
    · exact hm
    · exact exec_keeps_micro hx
    · exact assertRst_micro _
    · exact (exec_keeps_micro hx).trans hm
    · exact hm

/-! ### The digest port -/

/-- R57: bit `j` of the port is bit `j mod 8` of byte `j div 8` of the byte view, below `dlen`. -/
theorem packBytes_bytesOfLanes_getLsbD (a : Lanes) (n : Nat) {j : Nat} (hj : j < 512) :
    (packBytes (bytesOfLanes a n)).getLsbD j = (decide (j / 8 < n) && (byteOfLanes a (j / 8)).getLsbD (j % 8)) := by
  rw [packBytes_getLsbD _ hj, bytesOfLanes_getD]
  by_cases h : j / 8 < n <;> simp [h]

theorem packBytes_bytesOfLanes_byte (a : Lanes) {n k : Nat} (hn : n ≤ 64) (hk : k < n) :
    (packBytes (bytesOfLanes a n)).extractLsb' (8 * k) 8 = byteOfLanes a k := by
  apply BitVec.eq_of_getLsbD_eq
  intro j hj
  have byte : (8 * k + j) / 8 = k := by omega
  have bit : (8 * k + j) % 8 = j := by omega
  simp [hj, packBytes_bytesOfLanes_getLsbD a n (show 8 * k + j < 512 by omega), byte, bit, hk]

/-- The bytes of a lane wholly below `dlen` make up the lane. -/
theorem packBytes_bytesOfLanes_lane (a : Lanes) {n : Nat} (i : Fin 25) (hn : n ≤ 64) (hi : 8 * i.val + 8 ≤ n) :
    (packBytes (bytesOfLanes a n)).extractLsb' (64 * i.val) 64 = a[i] := by
  rw [← laneOfBytes_byteOfLanes a i]
  apply BitVec.eq_of_getLsbD_eq
  intro j hj
  have byte : (64 * i.val + j) / 8 = 8 * i.val + j / 8 := by omega
  have bit : (64 * i.val + j) % 8 = j % 8 := by omega
  have below : 8 * i.val + j / 8 < n := by omega
  rw [laneOfBytes_getLsbD _ _ _ hj, BitVec.getLsbD_extractLsb',
    packBytes_bytesOfLanes_getLsbD a n (show 64 * i.val + j < 512 by omega), byte, bit]
  simp [hj, below]

theorem packBytes_bytesOfLanes_above (a : Lanes) {n j : Nat} (h : 8 * n ≤ j) :
    (packBytes (bytesOfLanes a n)).getLsbD j = false := by
  by_cases hj : j < 512
  · rw [packBytes_bytesOfLanes_getLsbD a n hj, decide_eq_false (by omega), Bool.false_and]
  · exact BitVec.getLsbD_of_ge _ j (by omega)

/-- Settles O40, from the bits of the packed bytes. -/
theorem digestPortShowsTheFirstBytes : Obligations.DigestPortShowsTheFirstBytes := by
  intro s done hn
  refine ⟨packBytes (bytesOfLanes s.lanes s.dlen.toNat), ?_, fun k => packBytes_bytesOfLanes_byte s.lanes hn,
    fun i => packBytes_bytesOfLanes_lane s.lanes (i.castLE (by decide)) hn,
    fun j => packBytes_bytesOfLanes_above s.lanes⟩
  rw [State.digestPort, done]

end Sys2Proof.Machine
end

section
/-! PROOFS, family 40_permutation. MIX and the four steps of a round at every lane (R61 to R69); the tables against
their generating rules; FINAL and a block-filling ABSORB as the sequences of their micro-operations. -/

namespace Sys2Proof.Machine

/-! ### States and sequences of operations -/

@[simp] theorem State.setLanes_self (s : State) : s.setLanes s.lanes = s := rfl

theorem State.setLanes_setFill (s : State) (a : Lanes) (v : Byte) :
    (s.setFill v).setLanes a = (s.setLanes a).setFill v := rfl

theorem andThen_next_right (r : Result) : andThen r .next = r := by
  cases r <;> rfl

theorem execAll_nil : execAll [] = .next := rfl

theorem execAll_cons (i : Instr) (is : List Instr) (s : State) :
    execAll (i :: is) s = andThen (exec i s) (execAll is) := rfl

theorem exec_mix (s : State) : exec .mix s = mixState s := rfl

theorem exec_pad (s : State) : exec .pad s = padState s := rfl

theorem exec_squeeze (s : State) : exec .squeeze s = squeezeState s := rfl

/-! ### MIX -/

theorem exec_mix_of_rate_le {s : State} (h : s.rate.toNat ≤ 200) :
    exec .mix s = .next (s.setLanes (mixLanes s.lanes s.buffer s.rate.toNat)) :=
  mixState_eq_next.2 ⟨h, rfl⟩

/-- R61: MIX at every offset; above the byte view both sides are 0. -/
theorem byteOfLanes_mixLanes_cases (a : Lanes) (b : Memory) {rate : Nat} (hr : rate ≤ 200) (k : Nat) :
    byteOfLanes (mixLanes a b rate) k = if k < rate then byteOfLanes a k ^^^ Memory.read b k else byteOfLanes a k := by
  by_cases hk : k < 200
  · rw [byteOfLanes_mixLanes _ _ _ _ hk]
    split
    · rfl
    · exact BitVec.xor_zero
  · rw [if_neg (by omega), byteOfLanes_above _ (by omega), byteOfLanes_above _ (by omega)]

/-- R61: MIX is the ascending byte loop. -/
theorem mixLanes_eq_xorBytes (a : Lanes) (b : Memory) {rate : Nat} (hr : rate ≤ 200) :
    mixLanes a b rate = xorBytes a (Memory.read b) rate :=
  lanes_eq_of_bytes fun k _ => by rw [byteOfLanes_mixLanes_cases a b hr, byteOfLanes_xorBytes _ _ hr]

theorem laneOfBytes_congr {f g : Nat → Byte} {i : Nat} (h : ∀ j, j < 8 → f (8 * i + j) = g (8 * i + j)) :
    laneOfBytes f i = laneOfBytes g i := by
  apply BitVec.eq_of_getLsbD_eq
  intro n hn
  rw [laneOfBytes_getLsbD _ _ _ hn, laneOfBytes_getLsbD _ _ _ hn, h _ (by omega)]

/-- R61: where the rate is a number of whole lanes, MIX is the XOR of that many lanes. -/
theorem mixLanes_getElem_of_dvd (a : Lanes) (b : Memory) {rate : Nat} (h8 : 8 ∣ rate) (i : Fin 25) :
    (mixLanes a b rate)[i] = if i.val < rate / 8 then a[i] ^^^ Memory.readLane b i.val else a[i] := by
  rw [Fin.getElem_fin, mixLanes_getElem]
  split
  · have below : ∀ j, j < 8 → 8 * i.val + j < rate := by omega
    rw [Memory.readLane, laneOfBytes_congr fun j hj => if_pos (below j hj)]
    rfl
  · have above : ∀ j, j < 8 → ¬ 8 * i.val + j < rate := by omega
    rw [laneOfBytes_eq_zero _ _ fun j hj => if_neg (above j hj)]
    exact BitVec.xor_zero

/-- R61: a block of zero bytes. -/
theorem mixLanes_of_zero_block (a : Lanes) {b : Memory} {rate : Nat} (h : ∀ k, k < rate → Memory.read b k = 0#8) :
    mixLanes a b rate = a := by
  ext1 i hi
  rw [mixLanes_getElem, laneOfBytes_eq_zero _ _ fun _ _ => ite_eq_right_iff.2 (h _), BitVec.xor_zero]

/-- R61: XOR is an involution. -/
theorem mixLanes_mixLanes (a : Lanes) (b : Memory) (rate : Nat) : mixLanes (mixLanes a b rate) b rate = a := by
  ext1 i hi
  rw [mixLanes_getElem, mixLanes_getElem, BitVec.xor_assoc, BitVec.xor_self, BitVec.xor_zero]

/-- Settles O25, from MIX at a byte and at a lane. -/
theorem mixXorsTheBlockIntoTheRatePart : Obligations.MixXorsTheBlockIntoTheRatePart := by
  refine ⟨rfl, fun s hr => ⟨⟨_, exec_mix_of_rate_le hr, fun k hk => ?_, fun k hk => ?_, mixLanes_eq_xorBytes _ _ hr,
    mixLanes_getElem_of_dvd _ _⟩, fun zero => ?_, ?_⟩⟩
  · rw [byteOfLanes_mixLanes_cases _ _ hr, if_pos hk]
  · rw [byteOfLanes_mixLanes_cases _ _ hr, if_neg (Nat.not_lt.2 hk)]
  · rw [exec_mix_of_rate_le hr, mixLanes_of_zero_block _ zero, State.setLanes_self]
  · rw [execAll_cons, exec_mix_of_rate_le hr, andThen_next, execAll_cons,
      exec_mix_of_rate_le (by simpa using hr), andThen_next, execAll_nil]
    simp only [State.setLanes_lanes, State.setLanes_buffer, State.setLanes_rate, State.setLanes_setLanes,
      mixLanes_mixLanes, State.setLanes_self]

/-! ### THETA -/

/-- R63: THETA at lane `i + 5y`, from the parities of columns `i - 1` and `i + 1`. -/
theorem thetaLanes_getElem_column (a : Lanes) (i y : Fin 5) :
    (thetaLanes a)[i.val + 5 * y.val] =
      a[i.val + 5 * y.val] ^^^ (columnParity a (i + 4) ^^^ (columnParity a (i + 1)).rotateLeft 1) := by
  have column : (⟨(i.val + 5 * y.val) % 5, by omega⟩ : Fin 5) = i := Fin.ext (by simp only; omega)
  have below : ∀ x : Fin 5, x - 1 = x + 4 := by decide
  rw [thetaLanes_getElem_neighbours, column, columnNeighbours, below]

/-- R63: where every parity is 0, THETA XORs nothing. -/
theorem thetaLanes_of_zero_parities {a : Lanes} (h : ∀ x, columnParity a x = 0#64) : thetaLanes a = a := by
  ext1 p hp
  rw [thetaLanes_getElem_neighbours, columnNeighbours, h, h]
  exact BitVec.xor_zero

/-- Settles O26: the parities written out in the statement are `columnParity`. -/
theorem thetaAddsTheNeighbouringParities : Obligations.ThetaAddsTheNeighbouringParities := by
  refine ⟨rfl, fun s => ⟨⟨_, exec_theta s, thetaLanes_getElem_column s.lanes⟩, fun zero => ?_⟩⟩
  rw [exec_theta, thetaLanes_of_zero_parities zero, State.setLanes_self]

/-! ### RHOPI -/

/-- Settles O27: each of the 24 listed moves is a row of the tables, with its source read off the chain. -/
theorem rhoPiMovesAndRotatesTheLanes : Obligations.RhoPiMovesAndRotatesTheLanes := by
  intro s
  refine ⟨_, exec_rhopi s, rhoPiLanes_getElem_zero _, fun move listed => ?_⟩
  obtain ⟨i, rfl⟩ : ∃ i : Fin 24, move = (rhoPiChain i.castSucc, dstTable[i], rotTable[i]) := by
    revert move; decide
  rw [rhoPiLanes_getElem_dst, rotl64_eq_rotateLeft _ (rotTable_range i).2]

/-! ### CHI -/

/-- Settles O28, from CHI by rows. -/
theorem chiCombinesTheOldRow : Obligations.ChiCombinesTheOldRow :=
  ⟨rfl, fun s => ⟨_, exec_chi s, fun y i => chiLanes_getElem_row s.lanes y.isLt i.isLt⟩⟩

/-! ### IOTA -/

/-- Settles O29, from IOTA at lane 0 and at the other lanes. -/
theorem iotaXorsTheRoundConstant : Obligations.IotaXorsTheRoundConstant := by
  intro r s
  refine ⟨if_pos r.isLt, ⟨_, exec_iota r.isLt s, iotaLanes_getElem_zero _ _, fun i hi =>
    iotaLanes_getElem_succ _ _ _ i.isLt (Fin.val_ne_zero_iff.2 hi)⟩, ?_⟩
  simp only [execAll_cons, exec_iota r.isLt, andThen_next, execAll_nil, State.setLanes_lanes, State.setLanes_setLanes,
    iotaLanes_iotaLanes, State.setLanes_self]

/-- Settles O30: there is no constant to XOR. -/
theorem iotaBeyondRound23IsRefused : Obligations.IotaBeyondRound23IsRefused :=
  fun _ _ high => dif_neg (Nat.not_lt.2 high)

/-! ### The tables, and one value of KECCAK_F -/

/-- Settles O31: the tables are finite, and each entry is computed from its rule. -/
theorem tablesFollowTheirGeneratingRules : Obligations.TablesFollowTheirGeneratingRules := by
  refine ⟨?walk, ?permutation, ?triangular, ?different, ?sum, ?lfsr⟩
  case walk => decide
  case permutation => decide
  case triangular => decide
  case different => decide
  case sum => decide
  case lfsr => decide +kernel

/-- Settles O33: the kernel runs the 24 rounds on the zero state. -/
theorem keccakFOfTheZeroState : Obligations.KeccakFOfTheZeroState := by
  unfold Obligations.KeccakFOfTheZeroState
  decide +kernel

/-! ### Commands and their micro-operations -/

/-- R62: the four micro-operations of a round are ROUND(r). -/
theorem execAll_round (r : Fin Config.roundCount) (s : State) :
    execAll [.theta, .rhopi, .chi, .iota r.val] s = .next (s.setLanes (roundLanes r s.lanes)) := by
  simp only [execAll_cons, exec_theta, exec_rhopi, exec_chi, exec_iota r.isLt, andThen_next, execAll_nil,
    State.setLanes_lanes, State.setLanes_setLanes, roundLanes]

/-- Any list of rounds, as micro-operations. -/
theorem execAll_rounds (rs : List (Fin Config.roundCount)) (s : State) :
    execAll (rs.flatMap fun r => [.theta, .rhopi, .chi, .iota r.val]) s =
      .next (s.setLanes (rs.foldl (fun a r => roundLanes r a) s.lanes)) := by
  induction rs generalizing s with
  | nil => rfl
  | cons r rs ih =>
    rw [List.flatMap_cons, execAll_append, execAll_round, andThen_next, ih, State.setLanes_setLanes,
      State.setLanes_lanes, List.foldl_cons]

/-- R60: the micro-operations of the 24 rounds are KECCAK_F. -/
theorem execAll_keccakMicroOps (s : State) : execAll keccakMicroOps s = .next (s.setLanes (keccakF s.lanes)) := by
  have rounds : keccakMicroOps =
      (List.finRange Config.roundCount).flatMap fun r => [.theta, .rhopi, .chi, .iota r.val] := by
    rw [keccakMicroOps, ← List.map_coe_finRange_eq_range, List.flatMap_map]
  rw [rounds, execAll_rounds, keccakF]

/-- R60, R122: PERMUTE is MIX and then the 24 rounds. -/
theorem permuteState_eq_execAll (s : State) : permuteState s = execAll ([.mix] ++ keccakMicroOps) s := by
  rw [List.singleton_append, execAll_cons, exec_mix, funext execAll_keccakMicroOps, permuteState]

/-- R82: FINAL in phase ABSORBING, also where one of its micro-operations stops. -/
theorem exec_final_eq_execAll {s : State} (hp : s.phase = .absorbing) :
    exec .final s = andThen (execAll ([.pad, .mix] ++ keccakMicroOps ++ [.squeeze]) s) fun u =>
      .next ((dropFill u).setPhase .done) := by
  rw [exec, execFinal, whileAbsorbing_of_absorbing hp]
  simp only [permuteState_eq_execAll, execAll_append, execAll_cons, execAll_nil, andThen_next_right, andThen_assoc,
    exec_pad, exec_squeeze]

/-- R81: the end of ABSORB on a full block permutes and clears `fill`, which the permutation does not read. -/
theorem closeFullBlock_setFill {s : State} {v : Byte} (full : v = s.rate) (hr : s.rate.toNat ≤ 200) :
    closeFullBlock (s.setFill v) = andThen (permuteState s) fun u => .next (u.setFill 0#8) := by
  rw [closeFullBlock_of_eq (s := s.setFill v) full hr, permuteState_eq_next.2 ⟨hr, rfl⟩, andThen_next,
    State.setLanes_setFill, State.setFill_setFill]
  simp only [State.setFill_lanes, State.setFill_buffer, State.setFill_rate]

/-- R81: an ABSORB that fills the block, also where its store stops. -/
theorem exec_absorb_eq_execAll (byte : Byte) {s : State} (hp : s.phase = .absorbing) (full : s.fill + 1 = s.rate) :
    exec (.absorb byte) s = andThen (storeByte s.fill.toNat byte s) fun u =>
      andThen (execAll ([.mix] ++ keccakMicroOps) u) fun v => .next (v.setFill 0#8) := by
  by_cases hf : s.fill.toNat < 200
  · have hr : s.rate.toNat ≤ 200 := by bv_omega
    rw [exec_absorb byte hp hf, storeByte_eq_next.2 ⟨hf, rfl⟩, andThen_next, ← permuteState_eq_execAll]
    exact closeFullBlock_setFill full hr
  · rw [exec_absorb_fault byte hp (Nat.not_lt.1 hf), storeByte, withinSpace_of_gt (by omega), andThen_fault]

/-- Settles O22: PERMUTE is its micro-operations, and with it FINAL and a block-filling ABSORB are theirs. -/
theorem commandsRunTheirMicroOperations : Obligations.CommandsRunTheirMicroOperations :=
  ⟨fun _ => exec_final_eq_execAll, fun byte _ => exec_absorb_eq_execAll byte⟩

end Sys2Proof.Machine
end

section
/-! PROOFS, family 41_commands. INIT, ABSORB and FINAL as updates of the state (R80 to R82), the phase machine (R83),
what INIT and a message leave (R86), incremental absorbing (R84, R85), and that nothing from before an INIT is seen
after it (R88). -/

namespace Sys2Proof.Machine

/-! ### The three commands as updates of the state -/

/-- The state after INIT (R80). -/
def afterInit (sel : Selector) (s : State) : State :=
  (((s.setRates (blockSizeOf (variantOf sel)) (digestLengthOf (variantOf sel))).setLanes
    (Vector.replicate 25 0#64)).setFill 0#8).setPhase .absorbing

/-- `B` after the store of ABSORB (R81). -/
def storedBuffer (s : State) (b : Byte) : Memory := Memory.write s.buffer s.fill.toNat b

/-- The state after a performed ABSORB (R81). -/
def afterAbsorb (s : State) (b : Byte) : State :=
  if s.fill + 1 = s.rate then
    ((s.setBuffer (storedBuffer s b)).setLanes
      (keccakF (mixLanes s.lanes (storedBuffer s b) s.rate.toNat))).setFill 0#8
  else (s.setBuffer (storedBuffer s b)).setFill (s.fill + 1)

/-- `B` after the padding of FINAL (R82, R90). -/
def finalBuffer (s : State) : Memory := padMemory s.buffer s.fill.toNat s.rate.toNat

/-- The lanes after FINAL (R82). -/
def finalLanes (s : State) : Lanes := keccakF (mixLanes s.lanes (finalBuffer s) s.rate.toNat)

/-- The state after a performed FINAL (R82). -/
def afterFinal (s : State) : State :=
  (dropFill ((((s.setBuffer (finalBuffer s)).setFill (s.fill + 1)).setLanes (finalLanes s)).setOutput
    (bytesOfLanes (finalLanes s) s.dlen.toNat))).setPhase .done

/-- What the commands need of a state, and keep from an INIT on; a part of the invariant, without the flags and the
output. -/
structure State.Sound (s : State) : Prop where
  micro : s.micro = none
  buffer : Memory.wf s.buffer
  rate : s.rate.toNat ≤ 200
  dlen : s.dlen.toNat ≤ 200
  fill : s.phase = .absorbing → s.fill.toNat < s.rate.toNat

theorem exec_init_eq (sel : Selector) (s : State) : exec (.init sel) s = .next (afterInit sel s) := exec_init sel s

theorem afterAbsorb_of_ne {s : State} {b : Byte} (h : s.fill + 1 ≠ s.rate) :
    afterAbsorb s b = (s.setBuffer (storedBuffer s b)).setFill (s.fill + 1) := if_neg h

theorem afterAbsorb_of_eq {s : State} {b : Byte} (h : s.fill + 1 = s.rate) :
    afterAbsorb s b = ((s.setBuffer (storedBuffer s b)).setLanes
      (keccakF (mixLanes s.lanes (storedBuffer s b) s.rate.toNat))).setFill 0#8 := if_pos h

theorem exec_absorb_eq (b : Byte) {s : State} (hp : s.phase = .absorbing) (hf : s.fill.toNat < 200) :
    exec (.absorb b) s = .next (afterAbsorb s b) := by
  rw [exec_absorb b hp hf]
  by_cases full : s.fill + 1 = s.rate
  · have hr : s.rate.toNat ≤ 200 := by bv_omega
    rw [afterAbsorb_of_eq full, closeFullBlock_of_eq (by simpa using full) (by simpa using hr)]
    rfl
  · rw [afterAbsorb_of_ne full, closeFullBlock_of_ne (by simpa using full)]
    rfl

theorem exec_final_eq {s : State} (h : s.Sound) (hp : s.phase = .absorbing) : exec .final s = .next (afterFinal s) :=
  exec_final hp (h.fill hp) h.rate h.dlen

/-! ### The commands keep a state sound -/

theorem afterInit_sound (sel : Selector) {s : State} (micro : s.micro = none) (buffer : Memory.wf s.buffer) :
    (afterInit sel s).Sound where
  micro := micro
  buffer := buffer
  rate := (variant_sizes_le _).1
  dlen := (variant_sizes_le _).2
  fill := fun _ => blockSizeOf_pos _

theorem refuse_sound (c : Cause) {s : State} (h : s.Sound) : (refuse c s).Sound :=
  ⟨h.micro, h.buffer, h.rate, h.dlen, h.fill⟩

theorem setInput_sound (l : List HostInput) {s : State} (h : s.Sound) : (s.setInput l).Sound :=
  ⟨h.micro, h.buffer, h.rate, h.dlen, h.fill⟩

theorem fill_lt_space {s : State} (h : s.Sound) (hp : s.phase = .absorbing) : s.fill.toNat < 200 :=
  Nat.lt_of_lt_of_le (h.fill hp) h.rate

/-- The 8-bit increment of `fill` does not wrap (D13). -/
theorem fill_succ_toNat {s : State} (h : s.Sound) (hp : s.phase = .absorbing) :
    (s.fill + 1).toNat = s.fill.toNat + 1 := by
  have := fill_lt_space h hp
  bv_omega

/-- The block is full when one more than `fill` is the rate, as numbers. -/
theorem block_full_iff {s : State} (h : s.Sound) (hp : s.phase = .absorbing) :
    s.fill + 1 = s.rate ↔ s.fill.toNat + 1 = s.rate.toNat := by
  rw [← BitVec.toNat_inj, fill_succ_toNat h hp]

theorem afterAbsorb_fill {s : State} (h : s.Sound) (hp : s.phase = .absorbing) (b : Byte) :
    (afterAbsorb s b).fill.toNat = if s.fill.toNat + 1 = s.rate.toNat then 0 else s.fill.toNat + 1 := by
  by_cases full : s.fill + 1 = s.rate
  · rw [afterAbsorb_of_eq full, if_pos ((block_full_iff h hp).1 full)]
    rfl
  · rw [afterAbsorb_of_ne full, if_neg (mt (block_full_iff h hp).2 full)]
    exact fill_succ_toNat h hp

@[simp] theorem afterAbsorb_buffer (s : State) (b : Byte) : (afterAbsorb s b).buffer = storedBuffer s b := by
  rw [afterAbsorb]; split <;> simp

@[simp] theorem afterAbsorb_phase (s : State) (b : Byte) : (afterAbsorb s b).phase = s.phase := by
  rw [afterAbsorb]; split <;> simp

theorem afterAbsorb_sameStatus (s : State) (b : Byte) : SameStatus s (afterAbsorb s b) := by
  rw [afterAbsorb]; split <;> constructor <;> simp

/-- ABSORB neither reads nor writes the host's input. -/
theorem afterAbsorb_setInput (s : State) (b : Byte) (l : List HostInput) :
    afterAbsorb (s.setInput l) b = (afterAbsorb s b).setInput l := by
  by_cases full : s.fill + 1 = s.rate
  · rw [afterAbsorb_of_eq full, afterAbsorb_of_eq (by simpa using full)]
    rfl
  · rw [afterAbsorb_of_ne full, afterAbsorb_of_ne (by simpa using full)]
    rfl

theorem afterAbsorb_sound {s : State} (h : s.Sound) (hp : s.phase = .absorbing) (b : Byte) :
    (afterAbsorb s b).Sound := by
  have same := afterAbsorb_sameStatus s b
  refine ⟨same.micro.trans h.micro, ?_, same.rate ▸ h.rate, same.dlen ▸ h.dlen, fun _ => ?_⟩
  · rw [afterAbsorb_buffer]
    exact Memory.write_wf h.buffer (fill_lt_space h hp) b
  · have below := h.fill hp
    rw [afterAbsorb_fill h hp, same.rate]
    split <;> omega

theorem afterFinal_sound {s : State} (h : s.Sound) (hp : s.phase = .absorbing) : (afterFinal s).Sound where
  micro := h.micro
  buffer := padMemory_wf h.buffer (h.fill hp) h.rate
  rate := h.rate
  dlen := h.dlen
  fill := nofun

@[simp] theorem afterFinal_lanes (s : State) : (afterFinal s).lanes = finalLanes s := rfl
@[simp] theorem afterFinal_phase (s : State) : (afterFinal s).phase = .done := rfl

theorem digestPort_of_done {s : State} (h : s.phase = .done) :
    s.digestPort = some (packBytes (bytesOfLanes s.lanes s.dlen.toNat)) := by
  rw [State.digestPort, h]

/-! ### The padded block -/

/-- R92: a byte of `pad(n)`: the first byte, zeros, and the mask ORed into the last byte. -/
theorem padBytes_getD {n j : Nat} (h : j < n) :
    (padBytes n).getD j 0#8 = (if j = 0 then firstPadByte else 0#8) ||| (if j = n - 1 then lastPadMask else 0#8) := by
  rw [padBytes]
  by_cases one : n = 1
  · obtain rfl : j = 0 := by omega
    rw [if_pos one, if_pos rfl, if_pos (by omega)]
    rfl
  rw [if_neg one, List.append_assoc]
  obtain rfl | middle | last : j = 0 ∨ (0 < j ∧ j < n - 1) ∨ j = n - 1 := by omega
  case inl =>
    rw [if_pos rfl, if_neg (by omega)]
    rfl
  case inr.inl =>
    obtain ⟨i, rfl⟩ : ∃ i, j = i + 1 := ⟨j - 1, by omega⟩
    rw [if_neg (by omega), if_neg (by omega), List.singleton_append, List.getD_cons_succ,
      List.getD_append _ _ _ _ (by simp; omega), List.getD_replicate _ (by omega)]
    rfl
  case inr.inr =>
    obtain ⟨i, rfl⟩ : ∃ i, j = i + 1 := ⟨j - 1, by omega⟩
    rw [if_neg (by omega), if_pos last, List.singleton_append, List.getD_cons_succ,
      List.getD_append_right _ _ _ _ (by simp; omega), List.length_replicate, show i - (n - 2) = 0 by omega]
    rfl

/-- R90, R92: from the fill on, the padded block is `pad(rate - fill)`. -/
theorem read_padMemory_of_ge {b : Memory} (hb : Memory.wf b) {f rate k : Nat} (hr : rate ≤ 200) (hf : f ≤ k)
    (hk : k < rate) : Memory.read (padMemory b f rate) k = (padBytes (rate - f)).getD (k - f) 0#8 := by
  have first : k - f = 0 ↔ k = f := by omega
  have last : k - f = rate - f - 1 ↔ k = rate - 1 := by omega
  rw [read_padMemory hb (by omega) hr, padBytes_getD (by omega), if_neg (by omega)]
  simp only [first, last]

/-- R90: outside the padded bytes the block is as it was. -/
theorem read_padMemory_outside {b : Memory} (hb : Memory.wf b) {f rate k : Nat} (hf : f < rate) (hr : rate ≤ 200)
    (hk : k < f ∨ rate ≤ k) : Memory.read (padMemory b f rate) k = Memory.read b k := by
  rw [read_padMemory hb hf hr, if_pos hk]

/-! ### INIT, ABSORB, FINAL -/

theorem decodeCommand_of_encode {i : Instr} {w : Word} (hw : encode i = .command w) (h : i.wellFormed = true) :
    decodeCommand w = .ok i :=
  decode_command.1 (hw ▸ decode_encode h)

/-- R49: every selector but three names the variant 256. -/
theorem variantOf_of_ne {sel : Selector} (h1 : sel ≠ 224#12) (h2 : sel ≠ 384#12) (h3 : sel ≠ 512#12) :
    variantOf sel = .v256 := by
  rw [variantOf, if_neg h1, if_neg h2, if_neg h3]

/-- Settles O18, from INIT as an update of the state. -/
theorem initStartsAFreshComputation : Obligations.InitStartsAFreshComputation := by
  refine fun sel s => ⟨decodeCommand_of_encode (i := .init sel) rfl rfl, _, exec_init_eq sel s, fun i => ?zero, rfl,
    rfl, ?v224, ?v384, ?v512, fun h1 h2 h3 => ?other, fun _ => rfl, rfl, rfl, rfl, rfl, rfl⟩
  case zero => exact Vector.getElem_replicate i.isLt
  case v224 => rintro rfl; exact ⟨rfl, rfl⟩
  case v384 => rintro rfl; exact ⟨rfl, rfl⟩
  case v512 => rintro rfl; exact ⟨rfl, rfl⟩
  case other =>
    show blockSizeOf (variantOf sel) = 136#8 ∧ digestLengthOf (variantOf sel) = 32#8
    rw [variantOf_of_ne h1 h2 h3]
    exact ⟨rfl, rfl⟩

/-- Settles O20: the store is a write at `fill`, and the two ends of ABSORB are the two cases of `afterAbsorb`. -/
theorem absorbStoresAByteAndPermutesAFullBlock : Obligations.AbsorbStoresAByteAndPermutesAFullBlock := by
  refine fun byte s => ⟨decodeCommand_of_encode (i := .absorb byte) rfl rfl, fun hp => ?_, fun hp hb hf => ?_⟩
  · exact exec_wrongPhase (.inl ⟨byte, rfl⟩) hp
  · rw [exec_absorb_eq byte hp hf]
    exact ⟨storedBuffer s byte, Memory.read_write_same hb _ _, fun _ => Memory.read_write_other _ _,
      fun notFull => congrArg _ (afterAbsorb_of_ne notFull), fun full => congrArg _ (afterAbsorb_of_eq full)⟩

/-- Settles O21, from FINAL as an update of the state and the padded block at each offset. -/
theorem finalPadsPermutesAndPresentsTheDigest : Obligations.FinalPadsPermutesAndPresentsTheDigest := by
  refine fun s => ⟨decodeCommand_of_encode (i := .final) rfl rfl, fun hp => exec_wrongPhase (.inr rfl) hp,
    fun hp hb hf hr hd => ?_⟩
  exact ⟨afterFinal s, exec_final hp hf hr (by omega), rfl, fun k => read_padMemory_outside hb hf hr,
    fun k => read_padMemory_of_ge hb hr, rfl, rfl, digestPort_of_done rfl, rfl, rfl, rfl, rfl, rfl, rfl⟩

/-! ### The phase machine -/

theorem acceptCommand_of_illegalOpcode {w : Word} (h : decodeCommand w = .error .illegalOpcode) (s : State) :
    acceptCommand w s = .next (refuse .illegalOpcode s) := by
  rw [acceptCommand, h]

theorem acceptCommand_of_illegalOperand {w : Word} (h : decodeCommand w = .error .illegalOperand) (s : State) :
    acceptCommand w s = .next (refuse .illegalOperand s) := by
  rw [acceptCommand, h]

/-- Settles O14: an accepted word performs its command, or is refused for its phase or as illegal. -/
theorem phaseMachine : Obligations.PhaseMachine := by
  intro s w rest inv hi
  obtain ⟨t, ht⟩ := noStepStopsUnderTheInvariant s inv
  have accepted : acceptCommand w (s.setInput rest) = .next t := (step_command inv.microEmpty hi).symm.trans ht
  have performed {i : Instr} (hd : decodeCommand w = .ok i) : exec i (s.setInput rest) = .next t :=
    (acceptCommand_of_ok hd _).symm.trans accepted
  have refused {i : Instr} (hi : (∃ b, i = .absorb b) ∨ i = .final) (hd : decodeCommand w = .ok i)
      (hp : s.phase ≠ .absorbing) : t = refuse .wrongPhase (s.setInput rest) :=
    Host.Outcome.next.inj ((performed hd).symm.trans (exec_wrongPhase hi hp))
  refine ⟨t, ht, fun sel hd => ?init, fun b hd => ?absorb, fun hd => ?final, fun hd => ?opcode, fun hd => ?operand,
    fun _ => rfl⟩
  case init =>
    obtain rfl := Host.Outcome.next.inj (performed hd)
    exact ⟨rfl, rfl, rfl⟩
  case absorb =>
    obtain ⟨sel, h⟩ | ⟨-, hp, rfl⟩ | ⟨h, -⟩ | ⟨-, phase, same⟩ := exec_cases (performed hd)
    case inr.inr.inr =>
      exact ⟨phase, fun _ => ⟨same.err, same.cause⟩, refused (.inl ⟨b, rfl⟩) hd⟩
    case inr.inl => exact ⟨rfl, fun h => absurd h hp, fun _ => rfl⟩
    all_goals cases h
  case final =>
    refine ⟨fun hp => ?_, refused (.inr rfl) hd⟩
    obtain ⟨sel, h⟩ | ⟨-, h, -⟩ | ⟨-, -, phase, same⟩ | ⟨h, -⟩ := exec_cases (performed hd)
    case inr.inr.inl => exact ⟨phase, same.err, same.cause⟩
    case inl => cases h
    case inr.inl => exact absurd hp h
    case inr.inr.inr => exact absurd rfl h
  case opcode => exact (Host.Outcome.next.inj ((acceptCommand_of_illegalOpcode hd _).symm.trans accepted)).symm
  case operand => exact (Host.Outcome.next.inj ((acceptCommand_of_illegalOperand hd _).symm.trans accepted)).symm

/-! ### Runs of ABSORB -/

/-- The state after the ABSORBs of a message. -/
def afterAbsorbs (s : State) (m : List Byte) : State := m.foldl afterAbsorb s

theorem afterAbsorbs_append (s : State) (m n : List Byte) :
    afterAbsorbs s (m ++ n) = afterAbsorbs (afterAbsorbs s m) n := List.foldl_append

theorem afterAbsorbs_concat (s : State) (m : List Byte) (b : Byte) :
    afterAbsorbs s (m ++ [b]) = afterAbsorb (afterAbsorbs s m) b := afterAbsorbs_append s m [b]

@[simp] theorem afterAbsorbs_phase (s : State) (m : List Byte) : (afterAbsorbs s m).phase = s.phase := by
  induction m generalizing s with
  | nil => rfl
  | cons b m ih => exact (ih _).trans (afterAbsorb_phase s b)

theorem SameStatus.trans {s t u : State} (h : SameStatus s t) (h' : SameStatus t u) : SameStatus s u :=
  ⟨h'.err.trans h.err, h'.cause.trans h.cause, h'.rate.trans h.rate, h'.dlen.trans h.dlen, h'.input.trans h.input,
    h'.micro.trans h.micro⟩

theorem afterAbsorbs_sameStatus (s : State) (m : List Byte) : SameStatus s (afterAbsorbs s m) := by
  induction m generalizing s with
  | nil => exact ⟨rfl, rfl, rfl, rfl, rfl, rfl⟩
  | cons b m ih => exact (afterAbsorb_sameStatus s b).trans (ih _)

theorem afterAbsorbs_sound {s : State} (h : s.Sound) (hp : s.phase = .absorbing) (m : List Byte) :
    (afterAbsorbs s m).Sound := by
  induction m generalizing s with
  | nil => exact h
  | cons b m ih => exact ih (afterAbsorb_sound h hp b) ((afterAbsorb_phase s b).trans hp)

theorem absorbStream_cons (b : Byte) (m : List Byte) :
    absorbStream (b :: m) = commandOf (.absorb b) ++ absorbStream m := rfl

theorem absorbStream_length (m : List Byte) : (absorbStream m).length = m.length := by
  induction m with
  | nil => rfl
  | cons b m ih => exact congrArg (· + 1) ih

theorem step_setInput_init {s : State} (micro : s.micro = none) (sel : Selector) (rest : List HostInput) :
    step (s.setInput (commandOf (.init sel) ++ rest)) = .next ((afterInit sel s).setInput rest) :=
  step_init (s := s.setInput (commandOf (.init sel) ++ rest)) micro rfl

theorem step_setInput_absorb {s : State} (h : s.Sound) (hp : s.phase = .absorbing) (b : Byte)
    (rest : List HostInput) :
    step (s.setInput (commandOf (.absorb b) ++ rest)) = .next ((afterAbsorb s b).setInput rest) := by
  have performed := exec_absorb_eq b (s := s.setInput rest) hp (fill_lt_space (setInput_sound rest h) hp)
  rw [afterAbsorb_setInput] at performed
  exact (step_absorb (s := s.setInput (commandOf (.absorb b) ++ rest)) h.micro rfl).trans performed

theorem step_setInput_final {s : State} (h : s.Sound) (hp : s.phase = .absorbing) (rest : List HostInput) :
    step (s.setInput (commandOf .final ++ rest)) = .next (afterFinal (s.setInput rest)) :=
  (step_final (s := s.setInput (commandOf .final ++ rest)) h.micro rfl).trans
    (exec_final_eq (s := s.setInput rest) (setInput_sound rest h) hp)

/-- R84: in phase ABSORBING the ABSORBs of a message are performed one after another, whatever follows them. -/
theorem runSteps_absorbStream {s : State} (h : s.Sound) (hp : s.phase = .absorbing) (m : List Byte)
    (rest : List HostInput) : runSteps m.length (s.setInput (absorbStream m ++ rest)) =
      .next ((afterAbsorbs s m).setInput rest) := by
  induction m generalizing s with
  | nil => rfl
  | cons b m ih =>
    rw [List.length_cons, runSteps_succ, absorbStream_cons, List.append_assoc, step_setInput_absorb h hp, andThen_next,
      ih (afterAbsorb_sound h hp b) ((afterAbsorb_phase s b).trans hp)]
    rfl

/-- R86: INIT and the ABSORBs of a message, from any phase. -/
theorem runSteps_init_absorbStream {s : State} (micro : s.micro = none) (buffer : Memory.wf s.buffer) (sel : Selector)
    (m : List Byte) (rest : List HostInput) :
    runSteps (m.length + 1) (s.setInput (commandOf (.init sel) ++ absorbStream m ++ rest)) =
      .next ((afterAbsorbs (afterInit sel s) m).setInput rest) := by
  rw [runSteps_succ, List.append_assoc, step_setInput_init micro, andThen_next,
    runSteps_absorbStream (afterInit_sound sel micro buffer) rfl]

/-! ### Blocks of a message and the lanes of the sponge -/

theorem div_mod_succ_of_lt {n r : Nat} (h : n % r + 1 < r) : (n + 1) / r = n / r ∧ (n + 1) % r = n % r + 1 := by
  have := Nat.mod_add_div n r
  exact (Nat.div_mod_unique (by omega)).2 ⟨by omega, h⟩

theorem div_mod_succ_of_eq {n r : Nat} (h : n % r + 1 = r) : (n + 1) / r = n / r + 1 ∧ (n + 1) % r = 0 := by
  have := Nat.mod_add_div n r
  exact (Nat.div_mod_unique (by omega)).2 ⟨by rw [Nat.mul_succ]; omega, by omega⟩

/-- A whole block (R95) is that stretch of the message. -/
theorem messageBlock_whole {rate j : Nat} {m : List Byte} (hj : j < m.length / rate) :
    messageBlock rate m j = (m.drop (j * rate)).take rate := if_pos hj

theorem messageBlock_last (rate : Nat) (m : List Byte) : messageBlock rate m (m.length / rate) =
    m.drop (m.length / rate * rate) ++ padBytes (rate - m.length % rate) := if_neg (Nat.lt_irrefl _)

/-- A whole block ends within the message. -/
theorem block_end_le {rate j n : Nat} (hj : j < n / rate) : j * rate + rate ≤ n := by
  rw [← Nat.succ_mul]
  exact (Nat.mul_le_mul_right rate hj).trans (Nat.div_mul_le_self n rate)

theorem messageBlock_length {rate j : Nat} {m : List Byte} (hr : 0 < rate) (hj : j ≤ m.length / rate) :
    (messageBlock rate m j).length = rate := by
  obtain whole | rfl := Nat.lt_or_eq_of_le hj
  · have := block_end_le whole
    rw [messageBlock_whole whole, List.length_take, List.length_drop]
    omega
  · have := Nat.mod_lt m.length hr
    have := Nat.div_add_mod' m.length rate
    rw [messageBlock_last, List.length_append, List.length_drop, padBytes_length (by omega)]
    omega

theorem messageBlock_whole_getD {rate j k : Nat} {m : List Byte} (hj : j < m.length / rate) (hk : k < rate) :
    (messageBlock rate m j).getD k 0#8 = m.getD (j * rate + k) 0#8 := by
  rw [messageBlock_whole hj, List.getD_eq_getElem?_getD, List.getElem?_take_of_lt hk, List.getElem?_drop,
    List.getD_eq_getElem?_getD]

theorem messageBlock_last_getD {rate : Nat} (m : List Byte) (k : Nat) :
    (messageBlock rate m (m.length / rate)).getD k 0#8 =
      if k < m.length % rate then m.getD (m.length / rate * rate + k) 0#8
      else (padBytes (rate - m.length % rate)).getD (k - m.length % rate) 0#8 := by
  have staged : (m.drop (m.length / rate * rate)).length = m.length % rate := by
    have := Nat.div_add_mod' m.length rate
    rw [List.length_drop]; omega
  rw [messageBlock_last]
  split
  case isTrue h =>
    rw [List.getD_append _ _ _ _ (by omega), List.getD_eq_getElem?_getD, List.getElem?_drop,
      List.getD_eq_getElem?_getD]
  case isFalse h => rw [List.getD_append_right _ _ _ _ (by omega), staged]

/-- Bytes that follow do not change the whole blocks. -/
theorem messageBlock_append {rate j : Nat} {m : List Byte} (n : List Byte) (hj : j < m.length / rate) :
    messageBlock rate (m ++ n) j = messageBlock rate m j := by
  have more : m.length / rate ≤ (m ++ n).length / rate := Nat.div_le_div_right (by simp)
  have := block_end_le hj
  rw [messageBlock_whole hj, messageBlock_whole (hj.trans_le more), List.drop_append_of_le_length (by omega),
    List.take_append_of_le_length (by rw [List.length_drop]; omega)]

theorem spongeLanes_append {rate j : Nat} {m : List Byte} (n : List Byte) (hj : j ≤ m.length / rate) :
    spongeLanes rate (m ++ n) j = spongeLanes rate m j := by
  induction j with
  | zero => rfl
  | succ j ih => rw [spongeLanes, spongeLanes, ih (by omega), messageBlock_append n hj]

/-- R95: PERMUTE on a buffer that holds block `j` is one step of the sponge. -/
theorem permute_block {b : Memory} {rate j : Nat} {m : List Byte} (h0 : 0 < rate) (hr : rate ≤ 200)
    (hj : j ≤ m.length / rate) (block : ∀ k, k < rate → Memory.read b k = (messageBlock rate m j).getD k 0#8) :
    keccakF (mixLanes (spongeLanes rate m j) b rate) = spongeLanes rate m (j + 1) := by
  have length := messageBlock_length h0 hj
  have mixed := mixLanes_eq_xorBlock (spongeLanes rate m j) b (messageBlock rate m j) (by rwa [length])
    (by rwa [length])
  rw [length] at mixed
  rw [spongeLanes, mixed]

/-! ### The state after a message -/

/-- R86: what lanes, `fill` and buffer hold when the bytes `m` have been absorbed since the INIT. -/
structure Absorbed (m : List Byte) (s : State) : Prop where
  fill : s.fill.toNat = m.length % s.rate.toNat
  staged : ∀ k, k < s.fill.toNat → Memory.read s.buffer k = m.getD (m.length / s.rate.toNat * s.rate.toNat + k) 0#8
  lanes : s.lanes = spongeLanes s.rate.toNat m (m.length / s.rate.toNat)

theorem afterInit_absorbed (sel : Selector) (s : State) : Absorbed [] (afterInit sel s) where
  fill := by simp [afterInit]
  staged := nofun
  lanes := by simp [afterInit, spongeLanes]

/-- The byte stored by ABSORB joins the staged bytes. -/
theorem read_storedBuffer {s : State} {m : List Byte} (hb : Memory.wf s.buffer) (h : Absorbed m s) (b : Byte) {k : Nat}
    (hk : k ≤ s.fill.toNat) :
    Memory.read (storedBuffer s b) k = (m ++ [b]).getD (m.length / s.rate.toNat * s.rate.toNat + k) 0#8 := by
  have := Nat.div_add_mod' m.length s.rate.toNat
  have := h.fill
  obtain before | rfl := Nat.lt_or_eq_of_le hk
  · rw [storedBuffer, Memory.read_write_other _ _ (Nat.ne_of_lt before), h.staged k before,
      List.getD_append _ _ _ _ (by omega)]
  · rw [storedBuffer, Memory.read_write_same hb, List.getD_append_right _ _ _ _ (by omega),
      show _ - m.length = 0 by omega]
    rfl

/-- One more byte, which leaves the block open or is its last. -/
theorem afterAbsorb_absorbed {s : State} {m : List Byte} (hs : s.Sound) (hp : s.phase = .absorbing)
    (h : Absorbed m s) (b : Byte) : Absorbed (m ++ [b]) (afterAbsorb s b) := by
  have below := hs.fill hp
  have stored {k : Nat} := read_storedBuffer hs.buffer h b (k := k)
  have rate := congrArg BitVec.toNat (afterAbsorb_sameStatus s b).rate
  have fill := afterAbsorb_fill hs hp b
  have size : (m ++ [b]).length = m.length + 1 := List.length_append
  by_cases full : s.fill.toNat + 1 = s.rate.toNat
  · obtain ⟨blocks, open0⟩ := div_mod_succ_of_eq (h.fill ▸ full)
    have one : m.length / s.rate.toNat < (m ++ [b]).length / s.rate.toNat := by rw [size, blocks]; omega
    rw [if_pos full] at fill
    refine ⟨by rw [fill, rate, size, open0], fun k hk => absurd hk (by omega), ?_⟩
    rw [rate, size, blocks, afterAbsorb_of_eq ((block_full_iff hs hp).2 full)]
    show keccakF (mixLanes s.lanes (storedBuffer s b) s.rate.toNat) = _
    rw [h.lanes, ← spongeLanes_append [b] (Nat.le_refl _)]
    refine permute_block (by omega) hs.rate one.le fun k hk => ?_
    rw [messageBlock_whole_getD one hk, stored (by omega)]
  · obtain ⟨blocks, staged⟩ := div_mod_succ_of_lt (n := m.length) (r := s.rate.toNat) (by rw [← h.fill]; omega)
    rw [if_neg full] at fill
    refine ⟨by rw [fill, rate, size, staged, h.fill], fun k hk => ?_, ?_⟩
    · rw [afterAbsorb_buffer, stored (by omega), rate, size, blocks]
    · rw [rate, size, blocks, afterAbsorb_of_ne (mt (block_full_iff hs hp).1 full),
        spongeLanes_append [b] (Nat.le_refl _)]
      exact h.lanes

theorem afterAbsorbs_absorbed {s : State} (hs : s.Sound) (hp : s.phase = .absorbing) (h : Absorbed [] s)
    (m : List Byte) : Absorbed m (afterAbsorbs s m) := by
  induction m using List.reverseRecOn with
  | nil => exact h
  | append_singleton m b ih =>
    rw [afterAbsorbs_concat]
    exact afterAbsorb_absorbed (afterAbsorbs_sound hs hp m) ((afterAbsorbs_phase s m).trans hp) ih b

/-- R95: FINAL absorbs the last, padded block. -/
theorem finalLanes_of_absorbed {s : State} {m : List Byte} (hs : s.Sound) (hp : s.phase = .absorbing)
    (h : Absorbed m s) : finalLanes s = spongeLanes s.rate.toNat m (m.length / s.rate.toNat + 1) := by
  have below := hs.fill hp
  rw [finalLanes, h.lanes]
  refine permute_block (by omega) hs.rate (Nat.le_refl _) fun k hk => ?_
  rw [messageBlock_last_getD, ← h.fill, finalBuffer]
  split
  case isTrue before => rw [read_padMemory_outside hs.buffer below hs.rate (.inl before), h.staged k before]
  case isFalse after => exact read_padMemory_of_ge hs.buffer hs.rate (Nat.le_of_not_lt after) hk

/-- Settles O44, by induction over the message from its end. -/
theorem stateAfterAbsorbingAMessage : Obligations.StateAfterAbsorbingAMessage := by
  intro s sel m rest micro buffer input
  have sound := afterInit_sound sel micro buffer
  obtain ⟨fill, staged, lanes⟩ := afterAbsorbs_absorbed sound rfl (afterInit_absorbed sel s) m
  have same := afterAbsorbs_sameStatus (afterInit sel s) m
  have run := runSteps_init_absorbStream micro buffer sel m rest
  rw [← input, State.setInput_self] at run
  exact ⟨_, run, afterAbsorbs_phase _ m, rfl, same.micro.trans micro, same.rate, same.dlen, fill, staged, lanes,
    same.err, same.cause⟩

/-! ### FINAL after a message, and two calls against one -/

theorem runSteps_one (s : State) : runSteps 1 s = step s := andThen_next_right (step s)

/-- R95: the stream of a whole message, from any phase. -/
theorem runSteps_hashStream {s : State} (micro : s.micro = none) (buffer : Memory.wf s.buffer) (sel : Selector)
    (m : List Byte) (rest : List HostInput) : runSteps (m.length + 2) (s.setInput (hashStream sel m ++ rest)) =
      .next (afterFinal ((afterAbsorbs (afterInit sel s) m).setInput rest)) := by
  have sound := afterAbsorbs_sound (afterInit_sound sel micro buffer) rfl m
  rw [hashStream, List.append_assoc, runSteps_add (m.length + 1) 1, runSteps_init_absorbStream micro buffer,
    andThen_next, runSteps_one, step_setInput_final sound (afterAbsorbs_phase _ m)]

/-- R95: the lanes after the stream of a whole message are the last state of the sponge. -/
theorem finalLanes_afterAbsorbs {s : State} (micro : s.micro = none) (buffer : Memory.wf s.buffer) (sel : Selector)
    (m : List Byte) : finalLanes (afterAbsorbs (afterInit sel s) m) =
      spongeLanes (blockSizeOf (variantOf sel)).toNat m (m.length / (blockSizeOf (variantOf sel)).toNat + 1) := by
  have sound := afterInit_sound sel micro buffer
  have rate : (afterAbsorbs (afterInit sel s) m).rate = blockSizeOf (variantOf sel) :=
    (afterAbsorbs_sameStatus (afterInit sel s) m).rate
  rw [← rate]
  exact finalLanes_of_absorbed (afterAbsorbs_sound sound rfl m) (afterAbsorbs_phase _ m)
    (afterAbsorbs_absorbed sound rfl (afterInit_absorbed sel s) m)

/-- Settles O43: the ABSORBs of `m1 ++ m2` are those of `m1` and then those of `m2`, and FINAL follows the same
state. -/
theorem incrementalAbsorbGivesTheSameDigest : Obligations.IncrementalAbsorbGivesTheSameDigest := by
  intro s sel m1 m2 micro buffer rate dlen m
  have sound := afterInit_sound sel micro buffer
  have oneCall (n : List Byte) := runSteps_init_absorbStream micro buffer sel n []
  have secondCall := runSteps_absorbStream (afterAbsorbs_sound sound rfl m1) (afterAbsorbs_phase _ m1) m2 []
  have final := step_setInput_final (afterAbsorbs_sound sound rfl m) (afterAbsorbs_phase _ m) []
  have whole := runSteps_hashStream micro buffer sel m []
  rw [← afterAbsorbs_append] at secondCall
  simp only [List.append_nil] at oneCall secondCall final whole
  refine ⟨(afterAbsorbs (afterInit sel s) m1).setInput [], (afterAbsorbs (afterInit sel s) m).setInput [], _,
    oneCall m1, rfl, ?second, rfl, ?empty, oneCall m, final, whole, rfl, ?digest⟩
  case second => rwa [absorbStream_length]
  case empty =>
    rintro rfl
    exact ⟨rfl, congrArg (fun n => (afterAbsorbs (afterInit sel s) n).setInput []) (List.append_nil m1)⟩
  case digest =>
    have same : (afterAbsorbs (afterInit sel s) m).dlen = digestLengthOf (variantOf sel) :=
      (afterAbsorbs_sameStatus (afterInit sel s) m).dlen
    rw [digestPort_of_done rfl, ← finalLanes_afterAbsorbs micro buffer sel m]
    show some (packBytes (bytesOfLanes _ (afterAbsorbs (afterInit sel s) m).dlen.toNat)) = _
    rw [same]
    rfl

/-! ### Two engines on the same words -/

/-- Two engines that the host gives the same words; `flags` says whether their `err` and `cause` agreed at first. -/
structure SameHost (flags : Prop) (s t : State) : Prop where
  input : t.input = s.input
  noRst : .rst ∉ s.input
  err : flags → t.err = s.err
  cause : flags → t.cause = s.cause

/-- R88: two engines on the same words that agree in all an INIT fixes; of the buffer, in the staged bytes. -/
structure Synced (flags : Prop) (s t : State) : Prop extends SameHost flags s t where
  left : s.Sound
  right : t.Sound
  lanes : t.lanes = s.lanes
  rate : t.rate = s.rate
  dlen : t.dlen = s.dlen
  phase : t.phase = s.phase
  fill : s.phase = .absorbing → t.fill = s.fill
  staged : s.phase = .absorbing → ∀ k, k < s.fill.toNat → Memory.read t.buffer k = Memory.read s.buffer k

/-- R112: with no command presented a step holds the state. -/
theorem step_no_input {s : State} (micro : s.micro = none) (input : s.input = []) : step s = .next s := by
  rw [step, micro, input]

/-- Both answer a next state, and these are related by `R`. -/
def BothAnswer (R : State → State → Prop) (r r' : Result) : Prop := ∃ s t, r = .next s ∧ r' = .next t ∧ R s t

theorem bothAnswer_next {R : State → State → Prop} {s t : State} (h : R s t) : BothAnswer R (.next s) (.next t) :=
  ⟨s, t, rfl, rfl, h⟩

theorem bothAnswer_andThen {R : State → State → Prop} {r r' : Result} {f : State → Result} (h : BothAnswer R r r')
    (hf : ∀ s t, R s t → BothAnswer R (f s) (f t)) : BothAnswer R (andThen r f) (andThen r' f) := by
  obtain ⟨s, t, rfl, rfl, related⟩ := h
  exact hf s t related

/-- MIX reads the first `rate` bytes of the buffer alone. -/
theorem mixLanes_congr (a : Lanes) {b c : Memory} {rate : Nat}
    (h : ∀ k, k < rate → Memory.read c k = Memory.read b k) : mixLanes a c rate = mixLanes a b rate :=
  lanes_eq_of_bytes fun k hk => by
    rw [byteOfLanes_mixLanes _ _ _ _ hk, byteOfLanes_mixLanes _ _ _ _ hk]
    split
    case isTrue below => rw [h k below]
    case isFalse => rfl

/-- INIT synchronises any two engines that have the same words to come. -/
theorem afterInit_synced {flags : Prop} {s t : State} (h : SameHost flags s t) (sel : Selector)
    (left : (afterInit sel s).Sound) (right : (afterInit sel t).Sound) :
    Synced flags (afterInit sel s) (afterInit sel t) where
  input := h.input
  noRst := h.noRst
  err := h.err
  cause := h.cause
  left := left
  right := right
  lanes := rfl
  rate := rfl
  dlen := rfl
  phase := rfl
  fill := fun _ => rfl
  staged := nofun

section
variable {flags : Prop} {s t : State} (h : Synced flags s t)
include h

theorem refuse_synced (c : Cause) : Synced flags (refuse c s) (refuse c t) where
  input := h.input
  noRst := h.noRst
  err := fun _ => rfl
  cause := fun same => by
    rw [refuse_eq, refuse_eq, State.setFlags_cause, State.setFlags_cause, h.err same, h.cause same]
  left := refuse_sound c h.left
  right := refuse_sound c h.right
  lanes := h.lanes
  rate := h.rate
  dlen := h.dlen
  phase := h.phase
  fill := h.fill
  staged := h.staged

theorem storedBuffer_synced (hp : s.phase = .absorbing) (b : Byte) {k : Nat} (hk : k ≤ s.fill.toNat) :
    Memory.read (storedBuffer t b) k = Memory.read (storedBuffer s b) k := by
  rw [storedBuffer, storedBuffer, h.fill hp]
  obtain before | rfl := Nat.lt_or_eq_of_le hk
  · rw [Memory.read_write_other _ _ (Nat.ne_of_lt before), Memory.read_write_other _ _ (Nat.ne_of_lt before),
      h.staged hp k before]
  · rw [Memory.read_write_same h.right.buffer, Memory.read_write_same h.left.buffer]

/-- A byte that fills the block has the same whole block permuted; another byte joins the staged ones. -/
theorem afterAbsorb_synced (hp : s.phase = .absorbing) (b : Byte) :
    Synced flags (afterAbsorb s b) (afterAbsorb t b) := by
  have hp' := h.phase.trans hp
  have ss := afterAbsorb_sameStatus s b
  have ts := afterAbsorb_sameStatus t b
  refine ⟨⟨?input, ss.input ▸ h.noRst, ?err, ?cause⟩, afterAbsorb_sound h.left hp b,
    afterAbsorb_sound h.right hp' b, ?lanes, ?rate, ?dlen, ?phase, fun _ => ?fill, fun _ k hk => ?staged⟩
  case input => rw [ss.input, ts.input, h.input]
  case err => rw [ss.err, ts.err]; exact h.err
  case cause => rw [ss.cause, ts.cause]; exact h.cause
  case rate => rw [ss.rate, ts.rate, h.rate]
  case dlen => rw [ss.dlen, ts.dlen, h.dlen]
  case phase => rw [afterAbsorb_phase, afterAbsorb_phase, h.phase]
  case fill =>
    rw [← BitVec.toNat_inj, afterAbsorb_fill h.left hp, afterAbsorb_fill h.right hp', h.fill hp, h.rate]
  case staged =>
    rw [afterAbsorb_buffer, afterAbsorb_buffer]
    rw [afterAbsorb_fill h.left hp] at hk
    exact storedBuffer_synced h hp b (by split at hk <;> omega)
  case lanes =>
    by_cases full : s.fill + 1 = s.rate
    · have count := (block_full_iff h.left hp).1 full
      rw [afterAbsorb_of_eq full, afterAbsorb_of_eq (by rw [h.fill hp, h.rate, full])]
      show keccakF (mixLanes t.lanes (storedBuffer t b) t.rate.toNat) =
        keccakF (mixLanes s.lanes (storedBuffer s b) s.rate.toNat)
      rw [h.lanes, h.rate, mixLanes_congr _ fun k hk => storedBuffer_synced h hp b (k := k) (by omega)]
    · rw [afterAbsorb_of_ne full, afterAbsorb_of_ne (by rwa [h.fill hp, h.rate])]
      exact h.lanes

/-- The padded block has the staged bytes, and padding where stale bytes were. -/
theorem finalBuffer_synced (hp : s.phase = .absorbing) {k : Nat} (hk : k < s.rate.toNat) :
    Memory.read (finalBuffer t) k = Memory.read (finalBuffer s) k := by
  have below := h.left.fill hp
  have below' := h.right.fill (h.phase.trans hp)
  rw [finalBuffer, finalBuffer, read_padMemory h.right.buffer below' h.right.rate,
    read_padMemory h.left.buffer below h.left.rate, h.fill hp, h.rate]
  split
  case isTrue before => exact h.staged hp k (by omega)
  case isFalse => rfl

theorem afterFinal_synced (hp : s.phase = .absorbing) : Synced flags (afterFinal s) (afterFinal t) where
  input := h.input
  noRst := h.noRst
  err := h.err
  cause := h.cause
  left := afterFinal_sound h.left hp
  right := afterFinal_sound h.right (h.phase.trans hp)
  lanes := by
    rw [afterFinal_lanes, afterFinal_lanes, finalLanes, finalLanes, h.lanes, h.rate,
      mixLanes_congr _ fun k => finalBuffer_synced h hp (k := k)]
  rate := h.rate
  dlen := h.dlen
  phase := by rw [afterFinal_phase, afterFinal_phase]
  fill := nofun
  staged := nofun

theorem exec_wrongPhase_synced {i : Instr} (hi : (∃ b, i = .absorb b) ∨ i = .final) (hp : s.phase ≠ .absorbing) :
    BothAnswer (Synced flags) (exec i s) (exec i t) := by
  rw [exec_wrongPhase hi hp, exec_wrongPhase hi (h.phase ▸ hp)]
  exact bothAnswer_next (refuse_synced h _)

theorem exec_absorb_synced (b : Byte) : BothAnswer (Synced flags) (exec (.absorb b) s) (exec (.absorb b) t) := by
  by_cases hp : s.phase = .absorbing
  · have hp' := h.phase.trans hp
    rw [exec_absorb_eq b hp (fill_lt_space h.left hp), exec_absorb_eq b hp' (fill_lt_space h.right hp')]
    exact bothAnswer_next (afterAbsorb_synced h hp b)
  · exact exec_wrongPhase_synced h (.inl ⟨b, rfl⟩) hp

theorem exec_final_synced : BothAnswer (Synced flags) (exec .final s) (exec .final t) := by
  by_cases hp : s.phase = .absorbing
  · rw [exec_final_eq h.left hp, exec_final_eq h.right (h.phase.trans hp)]
    exact bothAnswer_next (afterFinal_synced h hp)
  · exact exec_wrongPhase_synced h (.inr rfl) hp

theorem exec_init_synced (sel : Selector) : BothAnswer (Synced flags) (exec (.init sel) s) (exec (.init sel) t) :=
  bothAnswer_next (afterInit_synced h.toSameHost sel (afterInit_sound sel h.left.micro h.left.buffer)
    (afterInit_sound sel h.right.micro h.right.buffer))

/-- R88: any word, legal or not, keeps two engines synchronised. -/
theorem acceptCommand_synced (w : Word) : BothAnswer (Synced flags) (acceptCommand w s) (acceptCommand w t) := by
  cases hd : decodeCommand w with
  | ok i =>
    rw [acceptCommand_of_ok hd, acceptCommand_of_ok hd]
    obtain rfl | rfl | rfl := decodeCommand_cases hd
    · exact exec_init_synced h _
    · exact exec_absorb_synced h _
    · exact exec_final_synced h
  | error e =>
    cases e with
    | illegalOpcode =>
      rw [acceptCommand_of_illegalOpcode hd, acceptCommand_of_illegalOpcode hd]
      exact bothAnswer_next (refuse_synced h _)
    | illegalOperand =>
      rw [acceptCommand_of_illegalOperand hd, acceptCommand_of_illegalOperand hd]
      exact bothAnswer_next (refuse_synced h _)

theorem setInput_synced {l : List HostInput} (hl : .rst ∉ l) : Synced flags (s.setInput l) (t.setInput l) where
  input := rfl
  noRst := hl
  err := h.err
  cause := h.cause
  left := setInput_sound l h.left
  right := setInput_sound l h.right
  lanes := h.lanes
  rate := h.rate
  dlen := h.dlen
  phase := h.phase
  fill := h.fill
  staged := h.staged

theorem step_synced : BothAnswer (Synced flags) (step s) (step t) := by
  have noRst := h.noRst
  cases input : s.input with
  | nil =>
    rw [step_no_input h.left.micro input, step_no_input h.right.micro (h.input.trans input)]
    exact bothAnswer_next h
  | cons e rest =>
    rw [input, List.mem_cons, not_or] at noRst
    obtain ⟨notRst, noRst⟩ := noRst
    cases e with
    | rst => exact absurd rfl notRst
    | command w =>
      rw [step_command h.left.micro input, step_command h.right.micro (h.input.trans input)]
      exact acceptCommand_synced (setInput_synced h noRst) w

theorem digestPort_synced : t.digestPort = s.digestPort := by
  rw [State.digestPort, State.digestPort, h.phase, h.lanes, h.dlen]

end

theorem runSteps_synced {flags : Prop} {s t : State} (h : Synced flags s t) (k : Nat) :
    BothAnswer (Synced flags) (runSteps k s) (runSteps k t) := by
  induction k generalizing s t with
  | zero => exact bothAnswer_next h
  | succ k ih => exact bothAnswer_andThen (step_synced h) fun _ _ => ih

/-- Settles O46: INIT synchronises the two engines, and every further word keeps them so. -/
theorem enginesGivenTheSameWordsFromInitAgree : Obligations.EnginesGivenTheSameWordsFromInitAgree := by
  intro s1 s2 sel words k micro1 micro2 buffer1 buffer2 input1 input2
  have host : SameHost (s1.err = s2.err ∧ s1.cause = s2.cause) (s1.setInput (words.map .command))
      (s2.setInput (words.map .command)) :=
    ⟨rfl, by simp, fun ⟨err, _⟩ => err.symm, fun ⟨_, cause⟩ => cause.symm⟩
  have start := afterInit_synced host sel (afterInit_sound sel micro1 buffer1) (afterInit_sound sel micro2 buffer2)
  obtain ⟨t1, t2, run1, run2, h⟩ := runSteps_synced start k
  refine ⟨t1, t2, ?_, ?_, h.lanes.symm, h.rate.symm, h.dlen.symm, h.phase.symm, fun _ => (digestPort_synced h).symm,
    fun hp => (h.fill hp).symm, fun err cause => ⟨(h.err ⟨err, cause⟩).symm, (h.cause ⟨err, cause⟩).symm⟩⟩
  · rw [runSteps_succ, step_init micro1 input1, exec_init_eq, andThen_next, run1]
  · rw [runSteps_succ, step_init micro2 input2, exec_init_eq, andThen_next, run2]

end Sys2Proof.Machine
end

section
/-! PROOFS, family 42_sponge. The padded block (R90 to R92), the output of SQUEEZE and who writes it (R93, R94), the
whole-message function (R95), unrecognised selectors (R97), and how long a digest stays (R99). -/

namespace Sys2Proof.Machine

/-! ### The whole message -/

theorem afterFinal_sameStatus (s : State) : SameStatus s (afterFinal s) := ⟨rfl, rfl, rfl, rfl, rfl, rfl⟩

@[simp] theorem afterFinal_output (s : State) :
    (afterFinal s).output = bytesOfLanes (finalLanes s) s.dlen.toNat := rfl

@[simp] theorem finalLanes_setInput (s : State) (l : List HostInput) : finalLanes (s.setInput l) = finalLanes s := rfl

/-- Settles O45: the stream runs to FINAL on what the ABSORBs left, whose lanes after FINAL are the sponge's. -/
theorem hashStreamComputesTheSpongeFunction : Obligations.HashStreamComputesTheSpongeFunction := by
  intro s sel m rest micro buffer input rate dlen
  have run := runSteps_hashStream micro buffer sel m rest
  rw [← input, State.setInput_self] at run
  have lanes : finalLanes (afterAbsorbs (afterInit sel s) m) = spongeLanes rate m (m.length / rate + 1) :=
    finalLanes_afterAbsorbs micro buffer sel m
  have absorbed := afterAbsorbs_sameStatus (afterInit sel s) m
  have final := afterFinal_sameStatus ((afterAbsorbs (afterInit sel s) m).setInput rest)
  have size : (afterAbsorbs (afterInit sel s) m).dlen = digestLengthOf (variantOf sel) := absorbed.dlen
  refine ⟨_, run, afterFinal_phase _, final.input, ?lanes, ?port, ?output, final.err.trans absorbed.err,
    final.cause.trans absorbed.cause⟩
  case lanes => rw [afterFinal_lanes, finalLanes_setInput, lanes]
  case port =>
    rw [digestPort_of_done (afterFinal_phase _), final.dlen, State.setInput_dlen, size, afterFinal_lanes,
      finalLanes_setInput, lanes]
  case output => rw [afterFinal_output, State.setInput_dlen, size, finalLanes_setInput, lanes]

/-! ### Unrecognised selectors -/

/-- INIT reads of its selector only the variant it names. -/
theorem afterInit_congr {sel sel' : Selector} (h : variantOf sel = variantOf sel') (s : State) :
    afterInit sel s = afterInit sel' s := by
  rw [afterInit, afterInit, h]

/-- Settles O19: the two INITs leave one state, from which the runs go on alike. -/
theorem unrecognisedSelectorRunsAs256 : Obligations.UnrecognisedSelectorRunsAs256 := by
  intro sel s rest k micro h1 h2 h3
  have same : variantOf sel = variantOf 256#12 := variantOf_of_ne h1 h2 h3
  rw [runSteps_succ, runSteps_succ, step_setInput_init micro, step_setInput_init micro, afterInit_congr same]

/-! ### How long a digest stays -/

/-- R83: in phase DONE a command other than INIT is refused. -/
theorem exec_command_of_done {w : Word} {i : Instr} {s t : State} (hd : decodeCommand w = .ok i)
    (done : s.phase = .done) (h : exec i s = .next t) : (∃ sel, i = .init sel) ∨ t = refuse .wrongPhase s := by
  have notAbsorbing : s.phase ≠ .absorbing := by rw [done]; nofun
  have refused (hi : (∃ b, i = .absorb b) ∨ i = .final) : t = refuse .wrongPhase s :=
    Host.Outcome.next.inj (h.symm.trans (exec_wrongPhase hi notAbsorbing))
  obtain init | absorb | final := decodeCommand_cases hd
  · exact .inl ⟨_, init⟩
  · exact .inr (refused (.inl ⟨_, absorb⟩))
  · exact .inr (refused (.inr final))

/-- R99: a step from DONE holds the state or refuses a word, unless it takes `rst` or performs INIT. -/
theorem step_of_done {s t : State} (micro : s.micro = none) (done : s.phase = .done) (h : step s = .next t) :
    t = s ∨ (∃ c rest, t = refuse c (s.setInput rest)) ∨
      ∃ rest, s.input = .rst :: rest ∨ ∃ w sel, s.input = .command w :: rest ∧ decodeCommand w = .ok (.init sel) := by
  obtain ⟨-, -, held⟩ | ⟨m, i, hm, -⟩ | ⟨-, rest, hi, -⟩ | ⟨-, w, rest, i, hi, hd, hx⟩ | ⟨-, w, rest, c, -, -, refused⟩ :=
    step_next_cases h
  case inl => exact .inl held
  case inr.inl => exact absurd (micro.symm.trans hm) nofun
  case inr.inr.inl => exact .inr (.inr ⟨rest, .inl hi⟩)
  case inr.inr.inr.inl =>
    obtain ⟨sel, rfl⟩ | refused := exec_command_of_done (s := s.setInput rest) hd done hx
    · exact .inr (.inr ⟨rest, .inr ⟨w, sel, hi, hd⟩⟩)
    · exact .inr (.inl ⟨_, rest, refused⟩)
  case inr.inr.inr.inr => exact .inr (.inl ⟨c, rest, refused⟩)

theorem digestPort_refuse_setInput (c : Cause) (s : State) (l : List HostInput) :
    (refuse c (s.setInput l)).digestPort = s.digestPort := rfl

/-- Settles O23: a refusal writes the flags alone. -/
theorem digestStaysUntilInitOrRst : Obligations.DigestStaysUntilInitOrRst := by
  intro s t micro done h
  obtain rfl | ⟨c, rest, rfl⟩ | restart := step_of_done micro done h
  · exact .inl ⟨done, rfl, rfl, rfl, rfl, rfl, rfl⟩
  · exact .inl ⟨done, rfl, rfl, rfl, rfl, rfl, digestPort_refuse_setInput c s rest⟩
  · exact .inr restart

/-! ### PAD -/

/-- R90: PAD where the rule admits it, as one update of the state. -/
theorem exec_pad_eq {s : State} (hf : s.fill.toNat < s.rate.toNat) (hr : s.rate.toNat ≤ 200) :
    exec .pad s = .next ((s.setBuffer (finalBuffer s)).setFill (s.fill + 1)) := by
  have positive : s.rate ≠ 0#8 := by bv_omega
  exact padState_eq_next.2 ⟨positive, by omega, hr, rfl⟩

/-- Settles O35, from the padded block outside and inside the padding. -/
theorem padBuildsThePaddedBlock : Obligations.PadBuildsThePaddedBlock :=
  ⟨rfl, fun s hb hf hr => ⟨finalBuffer s, exec_pad_eq hf hr, fun _ => read_padMemory_outside hb hf hr,
    fun _ => read_padMemory_of_ge hb hr⟩⟩

/-- Settles O36: the padding is `pad(1)`, and all other bytes lie outside it. -/
theorem oneFreeByteIsPaddedWith86 : Obligations.OneFreeByteIsPaddedWith86 := by
  intro s hb free hr
  have below : s.fill.toNat < s.rate.toNat := by omega
  refine ⟨_, exec_pad_eq below hr, ?last, ?fill, fun k hk => ?other⟩
  case last =>
    have one : s.rate.toNat - s.fill.toNat = 1 := by omega
    have first : s.rate.toNat - 1 - s.fill.toNat = 0 := by omega
    refine (read_padMemory_of_ge hb hr (by omega) (by omega)).trans ?_
    rw [one, first]
    rfl
  case fill =>
    show s.fill + 1 = s.rate
    bv_omega
  case other => exact read_padMemory_outside hb below hr (by omega)

/-! ### SQUEEZE and the output -/

theorem bytesOfLanes_getElem? (a : Lanes) {n k : Nat} (h : k < n) : (bytesOfLanes a n)[k]? = some (byteOfLanes a k) := by
  rw [List.getElem?_eq_getElem (by rwa [bytesOfLanes_length]), bytesOfLanes_getElem]

/-- Settles O37: the output is the first bytes of the byte view, which the port packs. -/
theorem squeezeCopiesTheFirstBytes : Obligations.SqueezeCopiesTheFirstBytes := by
  refine ⟨rfl, fun s hd => ⟨bytesOfLanes s.lanes s.dlen.toNat, squeezeState_eq_next.2 ⟨hd, rfl⟩,
    bytesOfLanes_length _ _, fun k => bytesOfLanes_getElem? _, fun done h64 => ⟨_, digestPort_of_done done,
    fun k hk => ?_⟩⟩⟩
  rw [bytesOfLanes_getElem? _ hk]
  exact congrArg some (packBytes_bytesOfLanes_byte s.lanes h64 hk)

theorem exec_squeeze_output {s t : State} (h : exec .squeeze s = .next t) :
    t.output = bytesOfLanes t.lanes s.dlen.toNat := by
  obtain ⟨-, rfl⟩ := squeezeState_eq_next.1 h
  rfl

/-- R82: a performed FINAL ends with SQUEEZE of the lanes it leaves. -/
theorem exec_final_output {s t : State} (h : exec .final s = .next t) (hp : s.phase = .absorbing) :
    t.output = bytesOfLanes t.lanes s.dlen.toNat := by
  obtain ⟨notAbsorbing, -⟩ | ⟨-, u, hu, -, -, rfl⟩ := execFinal_cases h
  · exact absurd hp notAbsorbing
  · obtain ⟨-, -, -, rfl⟩ := padState_eq_next.1 hu
    simp

/-- R93: no instruction but SQUEEZE and a performed FINAL writes the output. -/
theorem exec_keeps_output {i : Instr} {s t : State} (h : exec i s = .next t) (notSqueeze : i ≠ .squeeze)
    (notFinal : ¬ (i = .final ∧ s.phase = .absorbing)) : t.output = s.output := by
  cases i with
  | init sel =>
    obtain rfl := Host.Outcome.next.inj ((exec_init_eq sel s).symm.trans h)
    rfl
  | absorb b =>
    obtain ⟨-, rfl⟩ | ⟨-, -, -, rfl⟩ | ⟨-, -, -, rfl⟩ := execAbsorb_cases h <;> simp
  | final =>
    obtain ⟨-, rfl⟩ | ⟨hp, -⟩ := execFinal_cases h
    · exact refuse_output _ _
    · exact absurd ⟨rfl, hp⟩ notFinal
  | mix | theta | rhopi | chi | iota r =>
    obtain ⟨a, rfl⟩ := exec_engine_lanes (by simp) h
    exact State.setLanes_output s a
  | pad =>
    obtain ⟨-, -, -, rfl⟩ := padState_eq_next.1 h
    simp
  | squeeze => exact absurd rfl notSqueeze

/-- Settles O47, from the two that write the output and the frame of all others. -/
theorem onlySqueezeAndFinalWriteTheOutput : Obligations.OnlySqueezeAndFinalWriteTheOutput := by
  refine fun i s t h => ⟨?_, exec_keeps_output h⟩
  rintro (rfl | ⟨rfl, hp⟩)
  · exact exec_squeeze_output h
  · exact exec_final_output h hp

/-! ### One squeeze suffices -/

/-- R19: the capacity is twice the digest length, the digest lies in the rate part, and the rate is whole lanes. -/
theorem variant_sizes_fit (v : Variant) : 200 - (blockSizeOf v).toNat = 2 * (digestLengthOf v).toNat ∧
    (digestLengthOf v).toNat ≤ (blockSizeOf v).toNat ∧ 8 ∣ (blockSizeOf v).toNat := by
  cases v <;> decide

theorem digestLengthOf_mem (v : Variant) : (digestLengthOf v).toNat ∈ [28, 32, 48, 64] := by
  cases v <;> decide

/-- Settles O41: in DONE the output is `dlen` bytes of the byte view, and the sizes are those of one variant. -/
theorem oneSqueezeSuffices : Obligations.OneSqueezeSuffices := by
  refine ⟨variant_sizes_fit, fun s inv done => ?_⟩
  obtain ⟨v, rate, dlen⟩ := inv.ratesLegal (by rw [done]; nofun)
  obtain ⟨-, fits, -⟩ := variant_sizes_fit v
  have length : s.output.length = s.dlen.toNat := by rw [inv.outputIsDigest done, bytesOfLanes_length]
  refine ⟨length, ?_, ?_⟩
  · rw [length, dlen]
    exact digestLengthOf_mem v
  · rwa [rate, dlen]

end Sys2Proof.Machine
end

section
/-! PROOFS, family 60_exceptions. The three refusals in the order of their tests and what each changes (R101, R102,
R104), and that the engine holds its state while nothing is presented (R112). -/

namespace Sys2Proof.Machine

/-! ### The words refused by the decoder, and those that reach the phase test -/

/-- R52: a nonzero reserved bit in the operand of an ABSORB or FINAL word. -/
def BadOperand (w : Word) : Prop :=
  (opField w = 0x2#4 ∧ reservedField w ≠ 0#4) ∨ (opField w = 0x3#4 ∧ argField w ≠ 0#12)

theorem decodeCommand_of_unused_op {w : Word} (init : opField w ≠ 0x1#4) (absorb : opField w ≠ 0x2#4)
    (final : opField w ≠ 0x3#4) : decodeCommand w = .error .illegalOpcode := by
  rw [decodeCommand, if_neg init, if_neg absorb, if_neg final]

theorem decodeCommand_of_badOperand {w : Word} (bad : BadOperand w) : decodeCommand w = .error .illegalOperand := by
  obtain ⟨op, reserved⟩ | ⟨op, arg⟩ := bad
  · simp [decodeCommand, op, reserved]
  · simp [decodeCommand, op, arg]

theorem decodeCommand_of_wellFormed {w : Word} (op : opField w = 0x2#4 ∨ opField w = 0x3#4) (wf : ¬ BadOperand w) :
    ∃ i, decodeCommand w = .ok i ∧ ((∃ b, i = .absorb b) ∨ i = .final) := by
  obtain op | op := op
  · have reserved : reservedField w = 0#4 := not_not.1 fun h => wf (.inl ⟨op, h⟩)
    exact ⟨_, decodeCommand_of_op_absorb op reserved, .inl ⟨_, rfl⟩⟩
  · have arg : argField w = 0#12 := not_not.1 fun h => wf (.inr ⟨op, h⟩)
    exact ⟨.final, by simp [decodeCommand, op, arg], .inr rfl⟩

/-! ### A performed instruction leaves the flags -/

/-- R80 to R82: INIT, and every instruction in phase ABSORBING, leave `err` and `cause`. -/
theorem exec_keeps_flags {i : Instr} {s t : State} (h : exec i s = .next t)
    (performed : (∃ sel, i = .init sel) ∨ s.phase = .absorbing) : t.err = s.err ∧ t.cause = s.cause := by
  obtain ⟨sel, rfl⟩ | ⟨command, phase, -⟩ | ⟨-, -, -, same⟩ | ⟨-, -, same⟩ := exec_cases h
  · obtain rfl := Host.Outcome.next.inj ((exec_init_eq sel s).symm.trans h)
    exact ⟨rfl, rfl⟩
  · obtain ⟨sel, rfl⟩ | absorbing := performed
    · simp at command
    · exact absurd absorbing phase
  · exact ⟨same.err, same.cause⟩
  · exact ⟨same.err, same.cause⟩

/-! ### The refusals, and the idle engine -/

/-- Settles O13: the decoder or the phase test refuses the word, and otherwise the step is a performed command, which
leaves the flags. -/
theorem refusalCausesAndEffect : Obligations.RefusalCausesAndEffect := by
  intro s w rest micro input op refused badOperand
  have accepts : step s = acceptCommand w (s.setInput rest) := step_command micro input
  have performs {i : Instr} (hd : decodeCommand w = .ok i) : step s = exec i (s.setInput rest) :=
    accepts.trans (acceptCommand_of_ok hd _)
  refine ⟨fun ⟨init, absorb, final⟩ => ?opcode, fun bad => ?operand, fun ⟨hop, wf, phase⟩ => ?phase,
    fun h t ht => ?performed⟩
  case opcode => exact accepts.trans (acceptCommand_of_illegalOpcode (decodeCommand_of_unused_op init absorb final) _)
  case operand => exact accepts.trans (acceptCommand_of_illegalOperand (decodeCommand_of_badOperand bad) _)
  case phase =>
    obtain ⟨i, hd, command⟩ := decodeCommand_of_wellFormed hop wf
    exact (performs hd).trans (exec_wrongPhase command phase)
  case performed =>
    obtain init | ⟨hop, wf, absorbing⟩ := h
    · have hd := decodeCommand_of_op_init init
      exact exec_keeps_flags (s := s.setInput rest) ((performs hd).symm.trans ht) (.inl ⟨_, rfl⟩)
    · obtain ⟨i, hd, -⟩ := decodeCommand_of_wellFormed hop wf
      exact exec_keeps_flags (s := s.setInput rest) ((performs hd).symm.trans ht) (.inr absorbing)

/-- Settles O7: the step of an engine with an empty slot and no input. -/
theorem idleEngineHoldsItsState : Obligations.IdleEngineHoldsItsState := fun _ => step_no_input

end Sys2Proof.Machine
end

section
/-! PROOFS, family 70_reset_and_hazards. What reset and `rst` leave in the status registers (R115). -/

namespace Sys2Proof.Machine

/-- R20 to R22, R29: the status registers right after reset. -/
theorem reset_status : State.reset.phase = .idle ∧ State.reset.err = false ∧ State.reset.cause = .none :=
  ⟨rfl, rfl, rfl⟩

/-- Settles O1: the step is `assertRst` of the state with `rst` consumed, which writes the status registers, empties
the slot and leaves the input. -/
theorem resetAndRstClearTheStatusRegisters : Obligations.ResetAndRstClearTheStatusRegisters := by
  refine ⟨reset_status, fun s rest micro input => ⟨assertRst (s.setInput rest), step_rst micro input, ?_⟩⟩
  have inputLeft : (assertRst (s.setInput rest)).input = rest := by
    rw [assertRst_input, State.setInput_input]
  exact ⟨assertRst_phase _, assertRst_err _, assertRst_cause _, assertRst_micro _, inputLeft⟩

end Sys2Proof.Machine
end
